-- ==== Sys2Proof/Word.lean ====
section
/-! DEFINITION. The machine's words: the 16-bit Word, the 32-bit instruction word, the 16-bit
instruction index, and text as a list of characters. -/

namespace Sys2Proof

/-- A Word, the machine's only integer width: 16 bits (00_scope.md R2). -/
abbrev Word := BitVec 16

/-- An instruction word: 32 bits, one length (30_encoding.md R70). -/
abbrev InstrWord := BitVec 32

/-- An instruction index, the content of the program counter: 16 bits, no byte address
(10_state.md R28). -/
abbrev PC := BitVec 16

/-- Text of the host side: assembler source, an `IN` line, an `OUT` line (00_scope.md R5). -/
abbrev Text := List Char

end Sys2Proof
end

