-- ==== Sys2Proof/Machine/Numeric.lean ====
section
/-! DEFINITION. The two readings between integers and Words: `mask16` and `signed16`
(00_scope.md R10, R11). -/

namespace Sys2Proof

/-- `mask16(n)`: the unique Word congruent to `n` modulo 65536, for any integer `n`
(00_scope.md R10). -/
def mask16 (n : Int) : Word := BitVec.ofInt 16 n

/-- `signed16(w)`: the two's-complement reading of a Word, used by the text of `OUT` alone
(00_scope.md R11). -/
def signed16 (w : Word) : Int :=
  if w.toNat < 32768 then (w.toNat : Int) else (w.toNat : Int) - 65536

end Sys2Proof
end

