-- ==== Sys2Proof/Syntax.lean ====
section
/-! DEFINITION. The instruction set as syntax: the closed set of fourteen opcodes, their seven
formats, and the instructions with their operands (00_scope.md R3, 30_encoding.md R71, R74). -/

namespace Sys2Proof

/-- A register index, 0 to 31; every value names a register (30_encoding.md R78). -/
abbrev RegIdx := Fin 32

/-- The opcode tags, in the order the spec lists its closed set (00_scope.md R3). -/
inductive Opcode where
  | add | sub | and | or | xor | addi | ld | st | beq | bne | jmp | inp | out | halt
  deriving DecidableEq, Repr

/-- The seven formats of an instruction word (30_encoding.md R74). -/
inductive Format where
  | r | i | m | b | j | p | z
  deriving DecidableEq, Repr

/-- The format of each opcode (30_encoding.md R76). -/
def Opcode.format : Opcode → Format
  | .add | .sub | .and | .or | .xor => .r
  | .addi => .i
  | .ld | .st => .m
  | .beq | .bne => .b
  | .jmp => .j
  | .inp | .out => .p
  | .halt => .z

/-- An instruction: an opcode tag and its operand tuple (30_encoding.md R71). Immediates and targets
are Words, stored masked. The address of LD and ST is an integer, as in an instruction built without
the assembler, so that the bounds check of 20_memory.md R54 has its meaning; a decoded instruction
always carries one in 0 to 65535 (log 11). -/
inductive Instr where
  | add (rd rs1 rs2 : RegIdx)
  | sub (rd rs1 rs2 : RegIdx)
  | and (rd rs1 rs2 : RegIdx)
  | or (rd rs1 rs2 : RegIdx)
  | xor (rd rs1 rs2 : RegIdx)
  | addi (rd rs1 : RegIdx) (imm : Word)
  | ld (rd : RegIdx) (addr : Int)
  | st (rs : RegIdx) (addr : Int)
  | beq (rs1 rs2 : RegIdx) (target : PC)
  | bne (rs1 rs2 : RegIdx) (target : PC)
  | jmp (target : PC)
  | inp (rd : RegIdx)
  | out (rs : RegIdx)
  | halt
  deriving DecidableEq, Repr

/-- The opcode tag of an instruction. -/
def Instr.opcode : Instr → Opcode
  | .add _ _ _ => .add
  | .sub _ _ _ => .sub
  | .and _ _ _ => .and
  | .or _ _ _ => .or
  | .xor _ _ _ => .xor
  | .addi _ _ _ => .addi
  | .ld _ _ => .ld
  | .st _ _ => .st
  | .beq _ _ _ => .beq
  | .bne _ _ _ => .bne
  | .jmp _ => .jmp
  | .inp _ => .inp
  | .out _ => .out
  | .halt => .halt

end Sys2Proof
end

