-- ==== Sys2Proof/WellFormed.lean ====
section
/-! DEFINITION. Which instructions an instruction word can carry. Register indices, immediates and
targets are in range by their types; the address of LD and ST is checked. -/

namespace Sys2Proof

/-- The address is a Word address of the data space, 0 to 65535 (20_memory.md R54). -/
def addrInRange (addr : Int) : Bool := decide (0 ≤ addr) && decide (addr ≤ 65535)

/-- The instruction has an encoding (30_encoding.md R83: registers 0 to 31, `imm`, `addr` and
`target` 0 to 65535). -/
def Instr.wf : Instr → Bool
  | .add _ _ _ => true
  | .sub _ _ _ => true
  | .and _ _ _ => true
  | .or _ _ _ => true
  | .xor _ _ _ => true
  | .addi _ _ _ => true
  | .ld _ addr => addrInRange addr
  | .st _ addr => addrInRange addr
  | .beq _ _ _ => true
  | .bne _ _ _ => true
  | .jmp _ => true
  | .inp _ => true
  | .out _ => true
  | .halt => true

end Sys2Proof
end

