-- ==== Sys2Proof/Decode.lean ====
section
/-! DEFINITION. The decoder, total on 32-bit words, and after it the encoder (30_encoding.md Part A).
All bit positions and opcode numbers are the spec's decisions D1 to D4. -/

namespace Sys2Proof

/-- `op = w[31:28]` (30_encoding.md R72). -/
def opField (w : InstrWord) : BitVec 4 := w.extractLsb' 28 4

/-- `a = w[27:23]`, the first register operand. -/
def aField (w : InstrWord) : BitVec 5 := w.extractLsb' 23 5

/-- `b = w[22:18]`, the second register operand. -/
def bField (w : InstrWord) : BitVec 5 := w.extractLsb' 18 5

/-- `k = w[15:0]`, the immediate, address or target, used exactly as it stands (30_encoding.md R77). -/
def kField (w : InstrWord) : BitVec 16 := w.extractLsb' 0 16

/-- `c = w[4:0]`, the third register operand of format R. -/
def cField (w : InstrWord) : BitVec 5 := w.extractLsb' 0 5

/-- A 5-bit field as a register index, used as it stands (30_encoding.md R78). -/
def regOfField (f : BitVec 5) : RegIdx := ⟨f.toNat, f.isLt⟩

/-- The opcode number of each tag (30_encoding.md R76). -/
def Opcode.number : Opcode → BitVec 4
  | .add => 0x0
  | .sub => 0x1
  | .and => 0x2
  | .or => 0x3
  | .xor => 0x4
  | .addi => 0x5
  | .ld => 0x6
  | .st => 0x7
  | .beq => 0x8
  | .bne => 0x9
  | .jmp => 0xA
  | .inp => 0xB
  | .out => 0xC
  | .halt => 0xD

/-- The tag of an opcode number; 0xE and 0xF are unassigned (30_encoding.md R80). -/
def opcodeOfNumber (op : BitVec 4) : Option Opcode :=
  match op.toNat with
  | 0x0 => some .add
  | 0x1 => some .sub
  | 0x2 => some .and
  | 0x3 => some .or
  | 0x4 => some .xor
  | 0x5 => some .addi
  | 0x6 => some .ld
  | 0x7 => some .st
  | 0x8 => some .beq
  | 0x9 => some .bne
  | 0xA => some .jmp
  | 0xB => some .inp
  | 0xC => some .out
  | 0xD => some .halt
  | _ => none

/-- The bits a format does not use and that must be 0 (30_encoding.md R74). -/
def Format.mustBeZero : Format → InstrWord
  | .r => 0x0003FFE0
  | .i => 0x00030000
  | .m => 0x007F0000
  | .b => 0x00030000
  | .j => 0x0FFF0000
  | .p => 0x007FFFFF
  | .z => 0x0FFFFFFF

/-- Why a word is no instruction. The machine makes no difference between the two (log 27). -/
inductive IllegalWord where
  /-- `op` is 0xE or 0xF (30_encoding.md R80). -/
  | unassignedOpcode
  /-- A must-be-zero field is not zero (30_encoding.md R79). -/
  | mustBeZeroBits
  deriving DecidableEq, Repr

/-- What the decoder answers: an instruction, or `Illegal` with the reason. -/
inductive Decoded where
  | legal (i : Instr)
  | illegal (why : IllegalWord)
  deriving DecidableEq, Repr

/-- The instruction of an opcode with the operand fields of a word (30_encoding.md R75). -/
def instrOfFields (o : Opcode) (w : InstrWord) : Instr :=
  let a := regOfField (aField w)
  let b := regOfField (bField w)
  let c := regOfField (cField w)
  let k := kField w
  match o with
  | .add => .add a b c
  | .sub => .sub a b c
  | .and => .and a b c
  | .or => .or a b c
  | .xor => .xor a b c
  | .addi => .addi a b k
  | .ld => .ld a (k.toNat : Int)
  | .st => .st a (k.toNat : Int)
  | .beq => .beq a b k
  | .bne => .bne a b k
  | .jmp => .jmp k
  | .inp => .inp a
  | .out => .out a
  | .halt => .halt

/-- The decoder: total, reads nothing but the word (30_encoding.md R75). -/
def decode (w : InstrWord) : Decoded :=
  match opcodeOfNumber (opField w) with
  | none => .illegal .unassignedOpcode
  | some o =>
    if w &&& o.format.mustBeZero = 0 then .legal (instrOfFields o w)
    else .illegal .mustBeZeroBits

/-- The instruction the decoder reads, `none` where it refuses. -/
def Decoded.toOption : Decoded → Option Instr
  | .legal i => some i
  | .illegal _ => none

/-- The decoder on the opcode table's numbering: `nbits` bits of `w`, every bit above them 0. -/
def decodeTableWord (nbits w : Nat) : Option Instr :=
  (decode (BitVec.ofNat 32 (w % 2 ^ nbits))).toOption

/-- A register index as a 5-bit field. -/
def regField (r : RegIdx) : BitVec 5 := BitVec.ofNat 5 r.val

/-- The word laid out field by field from bit 31 down, `{op, a, b, z, k}`: the picture of
30_encoding.md R72 and R74. -/
def packFields (op : BitVec 4) (a b : BitVec 5) (z : BitVec 2) (k : BitVec 16) : InstrWord :=
  op ++ a ++ b ++ z ++ k

/-- `op << 28`. -/
def opBits (o : Opcode) : InstrWord := o.number.setWidth 32 <<< 28

/-- A register index in field `a`. -/
def aBits (r : RegIdx) : InstrWord := BitVec.ofNat 32 r.val <<< 23

/-- A register index in field `b`. -/
def bBits (r : RegIdx) : InstrWord := BitVec.ofNat 32 r.val <<< 18

/-- A register index in field `c`. -/
def cBits (r : RegIdx) : InstrWord := BitVec.ofNat 32 r.val

/-- A 16-bit value in field `k`. -/
def kBits (k : BitVec 16) : InstrWord := k.setWidth 32

/-- The encoder, the inverse of the decoder on well-formed instructions (30_encoding.md R83). The
address of an ill-formed LD or ST is masked, as the assembler masks it (R102). -/
def encode : Instr → InstrWord
  | .add rd rs1 rs2 => opBits .add ||| aBits rd ||| bBits rs1 ||| cBits rs2
  | .sub rd rs1 rs2 => opBits .sub ||| aBits rd ||| bBits rs1 ||| cBits rs2
  | .and rd rs1 rs2 => opBits .and ||| aBits rd ||| bBits rs1 ||| cBits rs2
  | .or rd rs1 rs2 => opBits .or ||| aBits rd ||| bBits rs1 ||| cBits rs2
  | .xor rd rs1 rs2 => opBits .xor ||| aBits rd ||| bBits rs1 ||| cBits rs2
  | .addi rd rs1 imm => opBits .addi ||| aBits rd ||| bBits rs1 ||| kBits imm
  | .ld rd addr => opBits .ld ||| aBits rd ||| kBits (mask16 addr)
  | .st rs addr => opBits .st ||| aBits rs ||| kBits (mask16 addr)
  | .beq rs1 rs2 target => opBits .beq ||| aBits rs1 ||| bBits rs2 ||| kBits target
  | .bne rs1 rs2 target => opBits .bne ||| aBits rs1 ||| bBits rs2 ||| kBits target
  | .jmp target => opBits .jmp ||| kBits target
  | .inp rd => opBits .inp ||| aBits rd
  | .out rs => opBits .out ||| aBits rs
  | .halt => opBits .halt

/-- The `match` column of the opcode map: `op` in place, every other bit 0 (30_encoding.md R76). -/
def Opcode.matchWord (o : Opcode) : InstrWord := opBits o

/-- The `mask` column of the opcode map: `op` and the format's must-be-zero bits. -/
def Opcode.maskWord (o : Opcode) : InstrWord := 0xF0000000 ||| o.format.mustBeZero

end Sys2Proof
end

