-- ==== Sys2Proof/Machine/State.lean ====
section
/-! DEFINITION. The state of the machine as plain data, the reasons a step can stop, and the state
after reset (10_state.md R20, R40, R41; 00_scope.md R9). -/

namespace Sys2Proof.Machine

/-- The causes of a RuntimeFault (60_exceptions.md R166; the list is complete). -/
inductive Cause where
  | memBounds
  | inMalformed
  | inOutOfRange
  | inEndOfInput
  | unknownOpcode
  deriving DecidableEq, Repr

/-- The run status; a RuntimeFault records its cause (10_state.md R31). -/
inductive Status where
  | running
  | halted
  | outOfProgram
  | runtimeFault (cause : Cause)
  deriving DecidableEq, Repr

/-- One answer on the input port (43_io.md R141). -/
inductive InResp where
  | value (v : Word)
  | endOfInput
  | malformed
  | outOfRange
  deriving DecidableEq, Repr

/-- One trace record: the index fetched from, the decoded instruction, and the registers whose value
changed with their new values, by rising index (60_exceptions.md R182, R183; log 24). -/
structure TraceRec where
  pc0 : PC
  insn : Instr
  changed : List (RegIdx × Word)
  deriving DecidableEq, Repr

/-- The data memory as (Word address, Word) pairs in one canonical form (`Memory.wf`): addresses
strictly rising and below 65536, no entry equal to what an unlisted address reads as. The data space
has no bytes (20_memory.md R51), so a cell is a Word (log 1). -/
abbrev Memory := List (Nat × Word)

/-- The register file: 32 Words (10_state.md R21). Slot 0 is never read; register 0 is hard-wired
(log 4). -/
abbrev RegFile := Vector Word 32

/-- The whole state of the machine and of what the host sees of a run. -/
structure State where
  /-- General registers (10_state.md R21). -/
  regs : RegFile
  /-- Data memory (10_state.md R27). -/
  dmem : Memory
  /-- Program counter, an instruction index (10_state.md R28). -/
  pc : PC
  /-- Run status with the fault cause (10_state.md R31). -/
  status : Status
  /-- Instruction memory, the loaded Program; PROG_LEN is its length (10_state.md R41, log 5). -/
  imem : List InstrWord
  /-- The input source's answers still to come, oldest first; empty means it has not answered
  (43_io.md R141, R142; log 6). -/
  input : List InResp
  /-- The Words handed to the output sink in this run, oldest first (43_io.md R146, log 8). -/
  output : List Word
  /-- Trace enable, sampled at reset, constant for the run (60_exceptions.md R181). -/
  traceEn : Bool
  /-- Trace records emitted in this run, oldest first (60_exceptions.md R182, log 9). -/
  trace : List TraceRec
  /-- Executed-instruction count (60_exceptions.md R184, log 10). -/
  count : Nat
  deriving DecidableEq, Repr

/-- The reasons a step does not answer a next state. A RuntimeFault of the machine is none of them:
it is a next state (60_exceptions.md R170). -/
inductive Fault where
  /-- Raised by IN alone, when the input source has not answered: the step is not enabled, the stuck
  state of 93_implementation_defined.md U9. Safe: the machine waits where the model stops (log 7). -/
  | awaitingInput
  deriving DecidableEq, Repr

/-- The reasons a step has no meaning. -/
inductive Refusal where
  /-- Raised by exec's arm of an instruction that has no meaning yet; no arm raises it. Safe. -/
  | notModelled (mnemonic : String)
  deriving DecidableEq, Repr

/-- The machine right after reset (10_state.md R40): `pc` 0, Running, every register and memory Word
0x0000 (the spec's decision D7, logs 2 and 3), count 0. What the host supplies for a run is at the
model's choice: no Program, no answer yet, tracing off (logs 5, 6, 8, 9). -/
def State.reset : State where
  regs := Vector.replicate 32 0
  dmem := []
  pc := 0
  status := .running
  imem := []
  input := []
  output := []
  traceEn := false
  trace := []
  count := 0

end Sys2Proof.Machine
end

