-- ==== Sys2Proof/Machine/Ops.lean ====
section
/-! DEFINITION. The named operations over registers, memory, program counter, status, ports and
trace that the meanings and the instruction cycle are written with. -/

namespace Sys2Proof.Machine

/-- A read of a register; register 0 reads 0x0000 (10_state.md R22). -/
def RegFile.read (f : RegFile) (r : RegIdx) : Word := if r = 0 then 0 else f[r.val]

/-- A write of a register; a write to register 0 is discarded (10_state.md R23). -/
def RegFile.write (f : RegFile) (r : RegIdx) (v : Word) : RegFile :=
  if r = 0 then f else f.set r.val v r.isLt

/-- What an address of the data memory that nothing has written reads as: the reset value
(10_state.md R40, the spec's decision D7; log 2). -/
def Memory.unlisted : Word := 0

/-- Every listed address is at least `lo`, the addresses rise strictly and stay below 65536, and no
entry holds what an unlisted address reads as. -/
def Memory.wfFrom (lo : Nat) : Memory → Bool
  | [] => true
  | (a, v) :: m =>
    decide (lo ≤ a) && decide (a < 65536) && decide (v ≠ Memory.unlisted) && Memory.wfFrom (a + 1) m

/-- The canonical form of the data memory. -/
def Memory.wf (m : Memory) : Bool := Memory.wfFrom 0 m

/-- The Word the memory holds at an address (20_memory.md R52). -/
def Memory.read : Memory → Nat → Word
  | [], _ => Memory.unlisted
  | (a, v) :: m, addr => if a = addr then v else Memory.read m addr

/-- The memory with the Word `v` at an address and every other address as it was (20_memory.md R53),
in canonical form. -/
def Memory.write : Memory → Nat → Word → Memory
  | [], addr, v => if v = Memory.unlisted then [] else [(addr, v)]
  | (a, w) :: m, addr, v =>
    if addr < a then
      if v = Memory.unlisted then (a, w) :: m else (addr, v) :: (a, w) :: m
    else if addr = a then
      if v = Memory.unlisted then m else (addr, v) :: m
    else (a, w) :: Memory.write m addr v

/-- `x[r]` (00_scope.md section 6). -/
def State.readReg (s : State) (r : RegIdx) : Word := RegFile.read s.regs r

/-- `x[r] <- v`. -/
def State.writeReg (s : State) (r : RegIdx) (v : Word) : State :=
  { s with regs := RegFile.write s.regs r v }

/-- `MemRead(addr, 1)` (20_memory.md R52). -/
def State.memRead (s : State) (addr : Nat) : Word := Memory.read s.dmem addr

/-- `MemWrite(addr, 1, v)` (20_memory.md R53). -/
def State.memWrite (s : State) (addr : Nat) (v : Word) : State :=
  { s with dmem := Memory.write s.dmem addr v }

/-- `pc <- t`. -/
def State.setPc (s : State) (t : PC) : State := { s with pc := t }

/-- The step's advance of the program counter (10_state.md R29). It never wraps while PROG_LEN is at
most 65535 (R30, log 15). -/
def State.advance (s : State) : State := s.setPc (s.pc + 1)

/-- PROG_LEN, the number of instructions in the loaded Program (00_scope.md R7). -/
def State.progLen (s : State) : Nat := s.imem.length

/-- Fetch: the instruction word at `pc`, `none` where `pc` is outside the Program
(10_state.md R37). -/
def State.fetch (s : State) : Option InstrWord := s.imem[s.pc.toNat]?

/-- `status <- st` (10_state.md R31). -/
def State.setStatus (s : State) (st : Status) : State := { s with status := st }

/-- TAKING THE EXCEPTION: `raise RuntimeFault(cause)` sets the status with its cause and does nothing
else; no handler, no vector, no saved state (60_exceptions.md R170). There is no return from it
(R172); the way on is `applyReset`. -/
def State.raise (s : State) (cause : Cause) : State := s.setStatus (.runtimeFault cause)

/-- The reset event on a machine that may have run: every piece of architectural state takes its
reset value and `trace_en` is sampled (70_reset_and_hazards.md R190). The Program stays loaded and
the input source is not rewound; the records of the run's output and trace start empty (log 13). -/
def State.applyReset (s : State) (traceEn : Bool) : State :=
  { State.reset with imem := s.imem, input := s.input, traceEn := traceEn }

/-- `InPort()`: one transaction on the input port, `none` while the source has not answered
(43_io.md R141, R142). At the end of input there is no line to consume (R140), so the answer
EndOfInput stays (log 12). -/
def State.inPort (s : State) : Option (InResp × State) :=
  match s.input with
  | [] => none
  | .endOfInput :: _ => some (.endOfInput, s)
  | .value v :: rest => some (.value v, { s with input := rest })
  | .malformed :: rest => some (.malformed, { s with input := rest })
  | .outOfRange :: rest => some (.outOfRange, { s with input := rest })

/-- `OutPort(v)`: the sink takes the Word; it never blocks and never fails (43_io.md R146). -/
def State.outPort (s : State) (v : Word) : State := { s with output := s.output ++ [v] }

/-- The run status is RuntimeFault. -/
def Status.isFault : Status → Bool
  | .runtimeFault _ => true
  | .running | .halted | .outOfProgram => false

/-- The registers whose value after an instruction differs from the one before it, with the new
values (60_exceptions.md R182, R183). -/
def changedRegs (before after : State) : List (RegIdx × Word) :=
  (List.finRange 32).filterMap fun r =>
    if before.readReg r = after.readReg r then none else some (r, after.readReg r)

/-- The end of a step that executed `i`: `before` is the state the step began in, `after` the state
its execution left. An instruction that raised a fault is neither counted nor traced; every other
one, HALT included, is counted and, when `trace_en` is 1, traced (10_state.md R37,
60_exceptions.md R170, R182, R184). -/
def State.retire (before : State) (i : Instr) (after : State) : State :=
  { after with
    count := if after.status.isFault then after.count else after.count + 1
    trace :=
      if !after.status.isFault && after.traceEn then
        after.trace ++ [⟨before.pc, i, changedRegs before after⟩]
      else after.trace }

/-- The cause code (60_exceptions.md R167). -/
def Cause.code : Cause → BitVec 3
  | .memBounds => 1
  | .inMalformed => 2
  | .inOutOfRange => 3
  | .inEndOfInput => 4
  | .unknownOpcode => 5

/-- The 5-bit value on the `status` port: cause code in bits 4 to 2, run status in bits 1 to 0
(10_state.md R33). -/
def Status.port : Status → BitVec 5
  | .running => (0 : BitVec 3) ++ (0 : BitVec 2)
  | .halted => (0 : BitVec 3) ++ (1 : BitVec 2)
  | .outOfProgram => (0 : BitVec 3) ++ (2 : BitVec 2)
  | .runtimeFault c => c.code ++ (3 : BitVec 2)

/-- The `status` port of the machine. -/
def State.statusPort (s : State) : BitVec 5 := s.status.port

end Sys2Proof.Machine
end

