-- ==== Sys2Proof/Machine/Operands.lean ====
section
/-! DEFINITION. The operand forms: register, 16-bit immediate, absolute Word address, absolute
instruction index (30_encoding.md R71, R77, R78; 20_memory.md R66). -/

namespace Sys2Proof.Machine

/-- A register source operand. -/
def regOperand (s : State) (r : RegIdx) : Word := s.readReg r

/-- An immediate: the 16-bit field as it stands, not extended, scaled or shifted
(30_encoding.md R77). -/
def immOperand (imm : Word) : Word := imm

/-- The effective address of LD and ST: the absolute Word address of the instruction, `none` where it
lies outside 0 to 65535 (20_memory.md R54, R66). -/
def effectiveAddr (addr : Int) : Option Nat := if addrInRange addr then some addr.toNat else none

/-- A branch or jump target: an absolute instruction index, used as it stands
(42_branch_jump.md R138). -/
def targetOperand (target : PC) : PC := target

end Sys2Proof.Machine
end

