-- ==== Sys2Proof/Machine/Alu.lean ====
section
/-! DEFINITION. ADD, SUB, AND, OR, XOR, ADDI (40_alu.md). -/

namespace Sys2Proof.Machine

/-- The sum of two Words, masked; the carry is lost (40_alu.md R120). -/
def wordAdd (x y : Word) : Word := mask16 ((x.toNat : Int) + (y.toNat : Int))

/-- The difference of two Words, masked; the borrow is lost (40_alu.md R120). -/
def wordSub (x y : Word) : Word := mask16 ((x.toNat : Int) - (y.toNat : Int))

/-- Combine two source registers and write the result to `rd`; the sources are read before the
destination is written (40_alu.md R127, 10_state.md R26). -/
def aluRegReg (f : Word → Word → Word) (rd rs1 rs2 : RegIdx) (s : State) : State :=
  s.writeReg rd (f (regOperand s rs1) (regOperand s rs2))

/-- 40_alu.md R121. -/
def execAdd (rd rs1 rs2 : RegIdx) (s : State) : Host.Outcome State Fault Refusal :=
  .next (aluRegReg wordAdd rd rs1 rs2 s)

/-- 40_alu.md R122. -/
def execSub (rd rs1 rs2 : RegIdx) (s : State) : Host.Outcome State Fault Refusal :=
  .next (aluRegReg wordSub rd rs1 rs2 s)

/-- 40_alu.md R123. -/
def execAnd (rd rs1 rs2 : RegIdx) (s : State) : Host.Outcome State Fault Refusal :=
  .next (aluRegReg (· &&& ·) rd rs1 rs2 s)

/-- 40_alu.md R124. -/
def execOr (rd rs1 rs2 : RegIdx) (s : State) : Host.Outcome State Fault Refusal :=
  .next (aluRegReg (· ||| ·) rd rs1 rs2 s)

/-- 40_alu.md R125. -/
def execXor (rd rs1 rs2 : RegIdx) (s : State) : Host.Outcome State Fault Refusal :=
  .next (aluRegReg (· ^^^ ·) rd rs1 rs2 s)

/-- 40_alu.md R126. -/
def execAddi (rd rs1 : RegIdx) (imm : Word) (s : State) : Host.Outcome State Fault Refusal :=
  .next (s.writeReg rd (wordAdd (regOperand s rs1) (immOperand imm)))

end Sys2Proof.Machine
end

