-- ==== Sys2Proof/Machine/Flags.lean ====
section
/-! DEFINITION. The machine has no flags, condition codes or predicates (10_state.md R34): no
instruction records a carry, an overflow, a zero or a sign. The one condition an instruction computes
is the equality of two Words, which BEQ and BNE use at once and nothing keeps. -/

namespace Sys2Proof.Machine

/-- The equality comparator: all 16 bits are compared (42_branch_jump.md R135). -/
def wordsEqual (x y : Word) : Bool := decide (x = y)

end Sys2Proof.Machine
end

