-- ==== Sys2Proof/Machine/Branch.lean ====
section
/-! DEFINITION. BEQ, BNE, JMP (42_branch_jump.md). `pc` already holds the next sequential index. -/

namespace Sys2Proof.Machine

/-- Overwrite `pc` with the target on the triggering condition; otherwise the sequential advance
stands (42_branch_jump.md R135, 10_state.md R29). -/
def branchIf (cond : Bool) (target : PC) (s : State) : State :=
  if cond then s.setPc (targetOperand target) else s

/-- 42_branch_jump.md R135. -/
def execBeq (rs1 rs2 : RegIdx) (target : PC) (s : State) : Host.Outcome State Fault Refusal :=
  .next (branchIf (wordsEqual (regOperand s rs1) (regOperand s rs2)) target s)

/-- 42_branch_jump.md R136. -/
def execBne (rs1 rs2 : RegIdx) (target : PC) (s : State) : Host.Outcome State Fault Refusal :=
  .next (branchIf (!wordsEqual (regOperand s rs1) (regOperand s rs2)) target s)

/-- 42_branch_jump.md R137. -/
def execJmp (target : PC) (s : State) : Host.Outcome State Fault Refusal :=
  .next (s.setPc (targetOperand target))

end Sys2Proof.Machine
end

