-- ==== Sys2Proof/Machine/InOut.lean ====
section
/-! DEFINITION. IN and OUT at the ports (43_io.md). The text adaptors stand in Adaptor.lean. -/

namespace Sys2Proof.Machine

/-- 43_io.md R140. Without an answer the step is not enabled (R142, 93_implementation_defined.md U9). -/
def execInp (rd : RegIdx) (s : State) : Host.Outcome State Fault Refusal :=
  match s.inPort with
  | none => .fault .awaitingInput
  | some (.value v, t) => .next (t.writeReg rd v)
  | some (.endOfInput, t) => .next (t.raise .inEndOfInput)
  | some (.malformed, t) => .next (t.raise .inMalformed)
  | some (.outOfRange, t) => .next (t.raise .inOutOfRange)

/-- 43_io.md R145. -/
def execOut (rs : RegIdx) (s : State) : Host.Outcome State Fault Refusal :=
  .next (s.outPort (regOperand s rs))

end Sys2Proof.Machine
end

