-- ==== Sys2Proof/Machine/LoadStore.lean ====
section
/-! DEFINITION. LD and ST (41_loadstore.md). -/

namespace Sys2Proof.Machine

/-- 41_loadstore.md R130; an address outside 0 to 65535, which no instruction word carries, raises
MemBounds before the access (20_memory.md R54, 60_exceptions.md R171). -/
def execLd (rd : RegIdx) (addr : Int) (s : State) : Host.Outcome State Fault Refusal :=
  match effectiveAddr addr with
  | some a => .next (s.writeReg rd (s.memRead a))
  | none => .next (s.raise .memBounds)

/-- 41_loadstore.md R131; the same bounds fault. -/
def execSt (rs : RegIdx) (addr : Int) (s : State) : Host.Outcome State Fault Refusal :=
  match effectiveAddr addr with
  | some a => .next (s.memWrite a (regOperand s rs))
  | none => .next (s.raise .memBounds)

end Sys2Proof.Machine
end

