-- ==== Sys2Proof/Machine/System.lean ====
section
/-! DEFINITION. HALT, and a word that is no instruction (44_system.md). -/

namespace Sys2Proof.Machine

/-- 44_system.md R160. -/
def execHalt (s : State) : Host.Outcome State Fault Refusal := .next (s.setStatus .halted)

/-- The execution of a word that decodes to Illegal (44_system.md R161). -/
def execIllegal (s : State) : Host.Outcome State Fault Refusal := .next (s.raise .unknownOpcode)

end Sys2Proof.Machine
end

