-- ==== Sys2Proof/Machine/Dispatch.lean ====
section
/-! DEFINITION. One arm per instruction: the execution of a decoded instruction, `pc` already
advanced (10_state.md R37). -/

namespace Sys2Proof.Machine

def exec (i : Instr) (s : State) : Host.Outcome State Fault Refusal :=
  match i with
  | .add rd rs1 rs2 => Sys2Proof.Machine.execAdd rd rs1 rs2 s
  | .sub rd rs1 rs2 => Sys2Proof.Machine.execSub rd rs1 rs2 s
  | .and rd rs1 rs2 => Sys2Proof.Machine.execAnd rd rs1 rs2 s
  | .or rd rs1 rs2 => Sys2Proof.Machine.execOr rd rs1 rs2 s
  | .xor rd rs1 rs2 => Sys2Proof.Machine.execXor rd rs1 rs2 s
  | .addi rd rs1 imm => Sys2Proof.Machine.execAddi rd rs1 imm s
  | .ld rd addr => Sys2Proof.Machine.execLd rd addr s
  | .st rs addr => Sys2Proof.Machine.execSt rs addr s
  | .beq rs1 rs2 target => Sys2Proof.Machine.execBeq rs1 rs2 target s
  | .bne rs1 rs2 target => Sys2Proof.Machine.execBne rs1 rs2 target s
  | .jmp target => Sys2Proof.Machine.execJmp target s
  | .inp rd => Sys2Proof.Machine.execInp rd s
  | .out rs => Sys2Proof.Machine.execOut rs s
  | .halt => Sys2Proof.Machine.execHalt s

end Sys2Proof.Machine
end

