-- ==== Sys2Proof/Machine/Cycle.lean ====
section
/-! DEFINITION. The instruction cycle (10_state.md R37): status test, bounds test, fetch, advance,
decode, execute, count and trace; and placing an instruction where the next fetch finds it. -/

namespace Sys2Proof.Machine

/-- Apply the end of the step to what the execution answered. -/
def finishStep (before : State) (i : Instr) :
    Host.Outcome State Fault Refusal → Host.Outcome State Fault Refusal
  | .next after => .next (before.retire i after)
  | .fault f => .fault f
  | .refused r => .refused r

/-- The part of the step after a successful fetch of `w`: the advance, then the decoded instruction's
execution, or the fault of a word that is no instruction. -/
def runWord (s : State) (w : InstrWord) : Host.Outcome State Fault Refusal :=
  match decode w with
  | .illegal _ => execIllegal s.advance
  | .legal i => finishStep s i (exec i s.advance)

/-- One step (10_state.md R37). In a terminal status it changes nothing (R32). -/
def cycle (s : State) : Host.Outcome State Fault Refusal :=
  match s.status with
  | .running =>
    match s.fetch with
    | none => .next (s.setStatus .outOfProgram)
    | some w => runWord s w
  | .halted => .next s
  | .outOfProgram => .next s
  | .runtimeFault _ => .next s

/-- The Program with the word `w` at index `n`, filled up with all-zero words if it is shorter. -/
def placeWord (prog : List InstrWord) (n : Nat) (w : InstrWord) : List InstrWord :=
  if n < prog.length then prog.set n w
  else prog ++ List.replicate (n - prog.length) 0 ++ [w]

/-- The state with the word `w` in instruction memory at `pc`, and Running, so that the very next
step fetches and runs it (log 17). -/
def State.placeNext (s : State) (w : InstrWord) : State :=
  { s with imem := placeWord s.imem s.pc.toNat w, status := .running }

end Sys2Proof.Machine
end

