-- ==== Sys2Proof/Config.lean ====
section
/-! DEFINITION. What the spec leaves open as a parameter of an implementation. The fixed parameters
of 00_scope.md R7 (16-bit Words, 32 registers, 65536 Words of data memory, 32-bit instruction words,
at most 65535 instructions) stand in the types and definitions that use them. -/

namespace Sys2Proof.Config

/-- The open value behind `runCeiling`: no body, so nothing can be proved of it (log 16). -/
opaque runCeilingPred : Nat

/-- RUN_CEILING, the iteration ceiling of `run()`: OPEN, a positive integer (00_scope.md R7,
60_exceptions.md R185, 93_implementation_defined.md U2). -/
def runCeiling : Nat := runCeilingPred + 1

end Sys2Proof.Config
end

