-- ==== Sys2Proof/Machine/Literal.lean ====
section
/-! DEFINITION. The numeric literal grammar shared by the assembler and by IN (30_encoding.md R110,
R112). -/

namespace Sys2Proof

/-- White space: space, tab, carriage return, line feed, vertical tab, form feed (30_encoding.md R110,
decision D25). -/
def isSpace (c : Char) : Bool :=
  c == ' ' || c == '\t' || c == '\r' || c == '\n' || c == '\x0b' || c == '\x0c'

/-- The text without its leading white space. -/
def trimLeft (t : Text) : Text := t.dropWhile isSpace

/-- The text without its leading and trailing white space. -/
def trim (t : Text) : Text := (trimLeft (trimLeft t).reverse).reverse

/-- The value of an ASCII decimal digit. -/
def decDigit? (c : Char) : Option Nat :=
  if '0'.toNat ≤ c.toNat ∧ c.toNat ≤ '9'.toNat then some (c.toNat - '0'.toNat) else none

/-- The value of an ASCII hexadecimal digit of either case (30_encoding.md R112). -/
def hexDigit? (c : Char) : Option Nat :=
  if '0'.toNat ≤ c.toNat ∧ c.toNat ≤ '9'.toNat then some (c.toNat - '0'.toNat)
  else if 'a'.toNat ≤ c.toNat ∧ c.toNat ≤ 'f'.toNat then some (c.toNat - 'a'.toNat + 10)
  else if 'A'.toNat ≤ c.toNat ∧ c.toNat ≤ 'F'.toNat then some (c.toNat - 'A'.toNat + 10)
  else none

/-- Digits read in a base, continuing from `acc`; `none` at a character that is no digit. -/
def digitsFrom (base : Nat) (digit? : Char → Option Nat) (acc : Nat) : Text → Option Nat
  | [] => some acc
  | c :: cs =>
    match digit? c with
    | some d => digitsFrom base digit? (acc * base + d) cs
    | none => none

/-- One or more digits of a base. -/
def digits (base : Nat) (digit? : Char → Option Nat) (t : Text) : Option Nat :=
  if t = [] then none else digitsFrom base digit? 0 t

/-- `[ prefix ] digits`: hexadecimal after `0x` or `0X`, otherwise decimal. -/
def parseMagnitude (t : Text) : Option Nat :=
  match t with
  | '0' :: 'x' :: ds => digits 16 hexDigit? ds
  | '0' :: 'X' :: ds => digits 16 hexDigit? ds
  | _ => digits 10 decDigit? t

/-- `[ sign ] [ prefix ] digits` with nothing around it. -/
def parseToken (t : Text) : Option Int :=
  match t with
  | '+' :: r => (parseMagnitude r).map fun (n : Nat) => (n : Int)
  | '-' :: r => (parseMagnitude r).map fun (n : Nat) => -(n : Int)
  | _ => (parseMagnitude t).map fun (n : Nat) => (n : Int)

/-- A numeric literal, possibly surrounded by white space; `none` is the parse error
(30_encoding.md R110). -/
def parseLiteral (t : Text) : Option Int := parseToken (trim t)

/-- The range of immediates and of IN values: -32768 to 65535 (30_encoding.md R99, 43_io.md R143). -/
def inImmRange (n : Int) : Bool := decide (-32768 ≤ n) && decide (n ≤ 65535)

end Sys2Proof
end

