-- ==== Sys2Proof/Machine/Adaptor.lean ====
section
/-! DEFINITION. The host-side text adaptors of the input and output ports (43_io.md R143, R147,
R148). -/

namespace Sys2Proof.Machine

/-- The answer to one line of input, its terminator removed (43_io.md R143). -/
def lineResponse (line : Text) : InResp :=
  match parseLiteral line with
  | none => .malformed
  | some n => if inImmRange n then .value (mask16 n) else .outOfRange

/-- `InAdaptor()`: the answer for the next line and the lines left (43_io.md R143). -/
def inAdaptor : List Text → InResp × List Text
  | [] => (.endOfInput, [])
  | line :: rest => (lineResponse line, rest)

/-- All the answers of an input source with these lines and nothing after them. -/
def portResponses (lines : List Text) : List InResp := lines.map lineResponse ++ [.endOfInput]

/-- A decimal digit as a character. -/
def decChar (d : Nat) : Char := Char.ofNat ('0'.toNat + d)

/-- A hexadecimal digit as a character, in lower case. -/
def hexChar (d : Nat) : Char :=
  if d < 10 then decChar d else Char.ofNat ('a'.toNat + (d - 10))

/-- A magnitude below 100000 as exactly five decimal digits, padded with zeros. -/
def dec5 (n : Nat) : Text :=
  [decChar (n / 10000 % 10), decChar (n / 1000 % 10), decChar (n / 100 % 10),
   decChar (n / 10 % 10), decChar (n % 10)]

/-- A Word as exactly four hexadecimal digits, padded with zeros. -/
def hex4 (v : Word) : Text :=
  [hexChar (v.toNat / 4096 % 16), hexChar (v.toNat / 256 % 16), hexChar (v.toNat / 16 % 16),
   hexChar (v.toNat % 16)]

/-- The sign and the five-digit magnitude of the two's-complement reading; zero has the sign `+`
(43_io.md R147, R148, decision D13). -/
def signedDec5 (v : Word) : Text :=
  (if signed16 v < 0 then '-' else '+') :: dec5 (signed16 v).natAbs

/-- `OutAdaptor(v)`: the line of text for one Word, without its terminator (43_io.md R147). -/
def outLine (v : Word) : Text := signedDec5 v ++ [' ', '(', '0', 'x'] ++ hex4 v ++ [')']

/-- The text of a run's output: every line ends in one line feed (43_io.md R148). -/
def outText (output : List Word) : Text := output.flatMap fun v => outLine v ++ ['\n']

end Sys2Proof.Machine
end

