-- ==== Sys2Proof/Machine/Assembler.lean ====
section
/-! DEFINITION. The two-pass assembler, with the pseudo-instructions LI and MOV (30_encoding.md
Part B). -/

namespace Sys2Proof.Asm

/-- What can be wrong with a line (30_encoding.md R109). An AssemblyError carries every defect that
applies to its line; which of them the error's text names is not specified (R98, log 19). -/
inductive Defect where
  | labelEmpty
  | labelWhitespace
  | labelDuplicate
  | unknownMnemonic
  | wrongArity
  | badRegister
  | badImmediate
  | programTooLong
  deriving DecidableEq, Repr

/-- AssemblyError, the assembler's one error kind: the line of the original text, counted from 1,
and the defects of that line (30_encoding.md R109, decision D21). -/
structure AssemblyError where
  line : Nat
  defects : List Defect
  deriving DecidableEq, Repr

/-- What the assembler, or one of its passes, answers. -/
inductive Result (α : Type) where
  | ok (a : α)
  | error (e : AssemblyError)
  deriving DecidableEq, Repr

/-- A source line that is left after cleaning, with its number in the original text. -/
structure SrcLine where
  number : Nat
  text : Text
  deriving DecidableEq, Repr

/-- The Label Table: label names with their instruction indices, in the order of declaration. -/
abbrev LabelTable := List (Text × Nat)

/-- The physical lines of a text; a line feed ends a line (log 18). -/
def splitLines : Text → List Text
  | [] => [[]]
  | c :: cs =>
    if c = '\n' then [] :: splitLines cs
    else
      match splitLines cs with
      | [] => [[c]]
      | l :: ls => (c :: l) :: ls

/-- Cut at the first `;` or `#`, then trim (30_encoding.md R91). -/
def clean (line : Text) : Text := trim (line.takeWhile fun c => c != ';' && c != '#')

/-- Clean and number the lines, from `n`, and skip the blank ones. -/
def cleanFrom (n : Nat) : List Text → List SrcLine
  | [] => []
  | l :: ls => if clean l = [] then cleanFrom (n + 1) ls else ⟨n, clean l⟩ :: cleanFrom (n + 1) ls

/-- The lines both passes see. -/
def cleanedLines (src : Text) : List SrcLine := cleanFrom 1 (splitLines src)

/-- A cleaned line is a label declaration when its last character is `:` (30_encoding.md R94). -/
def isLabelLine (t : Text) : Bool := t.getLast? == some ':'

/-- The name a label declaration declares: everything before the colon. -/
def labelName (t : Text) : Text := t.dropLast

/-- The index a label is bound to; names are compared exactly (30_encoding.md R94). -/
def lookupLabel (table : LabelTable) (name : Text) : Option Nat :=
  (table.find? fun e => e.1 == name).map Prod.snd

/-- What is wrong with a declaration (30_encoding.md R94). -/
def labelDefects (table : LabelTable) (name : Text) : List Defect :=
  (if name = [] then [.labelEmpty] else [])
    ++ (if name.any isSpace then [.labelWhitespace] else [])
    ++ (if (lookupLabel table name).isSome then [.labelDuplicate] else [])

/-- Pass 1: bind every label to the count, from `n`, of the statements before it (30_encoding.md R93). -/
def pass1 (table : LabelTable) (n : Nat) : List SrcLine → Result LabelTable
  | [] => .ok table
  | l :: ls =>
    if isLabelLine l.text then
      match labelDefects table (labelName l.text) with
      | [] => pass1 (table ++ [(labelName l.text, n)]) n ls
      | d :: ds => .error ⟨l.number, d :: ds⟩
    else pass1 table (n + 1) ls

/-- Words separated by white space, `cur` being the word begun, last character first. -/
def wordsFrom (cur : Text) : Text → List Text
  | [] => if cur = [] then [] else [cur.reverse]
  | c :: cs =>
    if isSpace c then
      if cur = [] then wordsFrom [] cs else cur.reverse :: wordsFrom [] cs
    else wordsFrom (c :: cur) cs

/-- The tokens of a statement: commas become spaces, then split on white space (30_encoding.md R95). -/
def tokens (t : Text) : List Text := wordsFrom [] (t.map fun c => if c = ',' then ' ' else c)

/-- An ASCII letter in upper case (log 25). -/
def upperChar (c : Char) : Char :=
  if 'a'.toNat ≤ c.toNat ∧ c.toNat ≤ 'z'.toNat then Char.ofNat (c.toNat - 32) else c

/-- The mnemonics: the fourteen opcodes and the two pseudo-instructions (30_encoding.md R96). -/
inductive Mnemonic where
  | op (o : Opcode)
  | li
  | mov
  deriving DecidableEq, Repr

/-- The name of an opcode, in upper case. -/
def opcodeName : Opcode → Text
  | .add => ['A', 'D', 'D']
  | .sub => ['S', 'U', 'B']
  | .and => ['A', 'N', 'D']
  | .or => ['O', 'R']
  | .xor => ['X', 'O', 'R']
  | .addi => ['A', 'D', 'D', 'I']
  | .ld => ['L', 'D']
  | .st => ['S', 'T']
  | .beq => ['B', 'E', 'Q']
  | .bne => ['B', 'N', 'E']
  | .jmp => ['J', 'M', 'P']
  | .inp => ['I', 'N']
  | .out => ['O', 'U', 'T']
  | .halt => ['H', 'A', 'L', 'T']

/-- The name of a mnemonic, in upper case. -/
def mnemonicName : Mnemonic → Text
  | .op o => opcodeName o
  | .li => ['L', 'I']
  | .mov => ['M', 'O', 'V']

/-- All sixteen mnemonics. -/
def allMnemonics : List Mnemonic :=
  [.op .add, .op .sub, .op .and, .op .or, .op .xor, .op .addi, .op .ld, .op .st, .op .beq, .op .bne,
   .op .jmp, .op .inp, .op .out, .op .halt, .li, .mov]

/-- The mnemonic a token names, whatever the case of its letters; `none` is the unknown-instruction
error (30_encoding.md R96, R107). -/
def mnemonicOf (t : Text) : Option Mnemonic :=
  allMnemonics.find? fun m => mnemonicName m == t.map upperChar

/-- The kinds of operand. -/
inductive OperandKind where
  | reg
  | imm
  | target
  deriving DecidableEq, Repr

/-- The operands each mnemonic takes; the list's length is its arity (30_encoding.md R98). -/
def operandKinds : Mnemonic → List OperandKind
  | .op .add | .op .sub | .op .and | .op .or | .op .xor => [.reg, .reg, .reg]
  | .op .addi => [.reg, .reg, .imm]
  | .li => [.reg, .imm]
  | .mov => [.reg, .reg]
  | .op .ld | .op .st => [.reg, .imm]
  | .op .beq | .op .bne => [.reg, .reg, .target]
  | .op .jmp => [.target]
  | .op .inp | .op .out => [.reg]
  | .op .halt => []

/-- An operand token as read. -/
inductive Operand where
  | reg (r : RegIdx)
  | word (w : Word)
  | bad (d : Defect)
  deriving DecidableEq, Repr

/-- A register token: `r` or `R`, then ASCII decimal digits whose value is 0 to 31
(30_encoding.md R97). -/
def parseReg (t : Text) : Option RegIdx :=
  match t with
  | [] => none
  | c :: ds =>
    if c = 'r' ∨ c = 'R' then
      match digits 10 decDigit? ds with
      | some n => if h : n < 32 then some ⟨n, h⟩ else none
      | none => none
    else none

/-- An immediate: parsed, range-checked, masked (30_encoding.md R99). -/
def parseImm (t : Text) : Option Word :=
  match parseLiteral t with
  | some n => if inImmRange n then some (mask16 n) else none
  | none => none

/-- A target: a declared label of that exact name, otherwise a numeric immediate
(30_encoding.md R103, R114). -/
def parseTarget (table : LabelTable) (t : Text) : Option Word :=
  match lookupLabel table t with
  | some n => some (BitVec.ofNat 16 n)
  | none => parseImm t

/-- Read one operand token as its kind. -/
def readOperand (table : LabelTable) : OperandKind → Text → Operand
  | .reg, t => match parseReg t with | some r => .reg r | none => .bad .badRegister
  | .imm, t => match parseImm t with | some w => .word w | none => .bad .badImmediate
  | .target, t => match parseTarget table t with | some w => .word w | none => .bad .badImmediate

/-- The defect of an operand. -/
def Operand.defect? : Operand → Option Defect
  | .bad d => some d
  | .reg _ => none
  | .word _ => none

/-- Three registers. -/
def threeRegs (mk : RegIdx → RegIdx → RegIdx → Instr) : List Operand → Option Instr
  | [.reg r1, .reg r2, .reg r3] => some (mk r1 r2 r3)
  | _ => none

/-- Two registers and a Word. -/
def twoRegsWord (mk : RegIdx → RegIdx → Word → Instr) : List Operand → Option Instr
  | [.reg r1, .reg r2, .word w] => some (mk r1 r2 w)
  | _ => none

/-- A register and a Word. -/
def regWord (mk : RegIdx → Word → Instr) : List Operand → Option Instr
  | [.reg r, .word w] => some (mk r w)
  | _ => none

/-- Two registers. -/
def twoRegs (mk : RegIdx → RegIdx → Instr) : List Operand → Option Instr
  | [.reg r1, .reg r2] => some (mk r1 r2)
  | _ => none

/-- One Word. -/
def oneWord (mk : Word → Instr) : List Operand → Option Instr
  | [.word w] => some (mk w)
  | _ => none

/-- One register. -/
def oneReg (mk : RegIdx → Instr) : List Operand → Option Instr
  | [.reg r] => some (mk r)
  | _ => none

/-- No operand. -/
def noOperand (i : Instr) : List Operand → Option Instr
  | [] => some i
  | _ :: _ => none

/-- The instruction of a mnemonic with its operands, pseudo-instructions expanded
(30_encoding.md R100 to R106); `none` where the operands do not have the mnemonic's form. -/
def buildInstr : Mnemonic → List Operand → Option Instr
  | .op .add => threeRegs .add
  | .op .sub => threeRegs .sub
  | .op .and => threeRegs .and
  | .op .or => threeRegs .or
  | .op .xor => threeRegs .xor
  | .op .addi => twoRegsWord .addi
  | .op .ld => regWord fun rd addr => .ld rd (addr.toNat : Int)
  | .op .st => regWord fun rs addr => .st rs (addr.toNat : Int)
  | .op .beq => twoRegsWord .beq
  | .op .bne => twoRegsWord .bne
  | .op .jmp => oneWord .jmp
  | .op .inp => oneReg .inp
  | .op .out => oneReg .out
  | .op .halt => noOperand .halt
  | .li => regWord fun rd imm => .addi rd 0 imm
  | .mov => twoRegs fun rd rs => .add rd rs 0

/-- What one statement assembles to. -/
inductive Statement where
  | instr (i : Instr)
  | defective (d : Defect) (ds : List Defect)
  deriving DecidableEq, Repr

/-- The operands of a mnemonic, each token read as the kind that stands at its place. -/
def readOperands (table : LabelTable) (m : Mnemonic) (ops : List Text) : List Operand :=
  List.zipWith (readOperand table) (operandKinds m) ops

/-- Every defect of a statement with a known mnemonic. -/
def statementDefects (table : LabelTable) (m : Mnemonic) (ops : List Text) : List Defect :=
  (if ops.length = (operandKinds m).length then [] else [.wrongArity])
    ++ (readOperands table m ops).filterMap Operand.defect?

/-- Assemble one cleaned statement (30_encoding.md R95 to R107). A line of commas alone has no first
token and is an unknown instruction (log 18). -/
def assembleStatement (table : LabelTable) (t : Text) : Statement :=
  match tokens t with
  | [] => .defective .unknownMnemonic []
  | first :: ops =>
    match mnemonicOf first with
    | none => .defective .unknownMnemonic []
    | some m =>
      match statementDefects table m ops with
      | d :: ds => .defective d ds
      | [] =>
        match buildInstr m (readOperands table m ops) with
        | some i => .instr i
        | none => .defective .wrongArity []

/-- The defect of a statement whose index is `n`: a Program has at most 65535 instructions
(30_encoding.md R113; log 20). -/
def lengthDefects (n : Nat) : List Defect := if n < 65535 then [] else [.programTooLong]

/-- Pass 2: assemble the statements in order, the next having index `n`, and stop at the first
defective one (30_encoding.md R90, R95). -/
def pass2 (table : LabelTable) (n : Nat) : List SrcLine → Result (List Instr)
  | [] => .ok []
  | l :: ls =>
    if isLabelLine l.text then pass2 table n ls
    else
      match assembleStatement table l.text, lengthDefects n with
      | .instr i, [] =>
        match pass2 table (n + 1) ls with
        | .ok is => .ok (i :: is)
        | .error e => .error e
      | .instr _, d :: ds => .error ⟨l.number, d :: ds⟩
      | .defective d ds, ls' => .error ⟨l.number, d :: ds ++ ls'⟩

/-- What a successful assembly yields: the Program and the Label Table (30_encoding.md R90). -/
structure Assembled where
  program : List Instr
  labels : LabelTable
  deriving DecidableEq, Repr

/-- The Program as instruction words (30_encoding.md R90). -/
def Assembled.words (a : Assembled) : List InstrWord := a.program.map encode

/-- The assembler: two passes over the whole text, the first error aborts it with no partial output
(30_encoding.md R90, R115). -/
def assemble (src : Text) : Result Assembled :=
  match pass1 [] 0 (cleanedLines src) with
  | .error e => .error e
  | .ok table =>
    match pass2 table 0 (cleanedLines src) with
    | .error e => .error e
    | .ok program => .ok ⟨program, table⟩

end Sys2Proof.Asm
end

