-- ==== Sys2Proof/Machine/Driver.lean ====
section
/-! DEFINITION. The host's side of a run: loading and reset, the `run()` driver with its ceiling, and
the process boundary (70_reset_and_hazards.md R190, R192; 60_exceptions.md R184 to R186). -/

namespace Sys2Proof.Machine

/-- What the host supplies for a run: the Program, the input source's answers, the trace enable, and,
in place of the zeros of decision D7, the contents of the registers and the data memory
(10_state.md R40, 93_implementation_defined.md U1). -/
structure Launch where
  prog : List InstrWord
  input : List InResp
  traceEn : Bool
  regInit : List (RegIdx × Word)
  memInit : List (PC × Word)
  deriving DecidableEq, Repr

/-- Write the initial register contents; register 0 stays 0. -/
def initRegs (f : RegFile) : List (RegIdx × Word) → RegFile
  | [] => f
  | (r, v) :: rest => initRegs (RegFile.write f r v) rest

/-- Write the initial memory contents. -/
def initMem (m : Memory) : List (PC × Word) → Memory
  | [] => m
  | (a, v) :: rest => initMem (Memory.write m a.toNat v) rest

/-- The state a run starts from, with launch parameters; a Program of more than 65535 instructions is
not admitted (93_implementation_defined.md U12, decision D5). -/
def bootWith (l : Launch) : Option State :=
  if l.prog.length ≤ 65535 then
    some { State.reset with
      regs := initRegs State.reset.regs l.regInit
      dmem := initMem State.reset.dmem l.memInit
      imem := l.prog
      input := l.input
      traceEn := l.traceEn }
  else none

/-- The state a run starts from, with the reset contents of 10_state.md R40. -/
def boot (prog : List InstrWord) (input : List InResp) (traceEn : Bool) : Option State :=
  bootWith ⟨prog, input, traceEn, [], []⟩

/-- How a call of `run()` ends. -/
inductive RunResult where
  /-- It returned the executed-instruction count: Halted, OutOfProgram or the ceiling, told apart by
  the final state's status (60_exceptions.md R184, R185). -/
  | returned (count : Nat) (final : State)
  /-- A RuntimeFault left it as an error (R170, R184). -/
  | faulted (cause : Cause) (final : State)
  /-- It waits inside an IN for an answer that has not come (43_io.md R142). -/
  | waiting (s : State)
  deriving DecidableEq, Repr

/-- What `run()` reports of the state it stops in. -/
def runResult (s : State) : RunResult :=
  match s.status with
  | .runtimeFault c => .faulted c s
  | .running => .returned s.count s
  | .halted => .returned s.count s
  | .outOfProgram => .returned s.count s

/-- `run()` with `n` iterations left to its ceiling (60_exceptions.md R185). -/
def runFor : Nat → State → RunResult
  | 0, s => runResult s
  | n + 1, s =>
    match s.status with
    | .running =>
      match cycle s with
      | .next t => runFor n t
      | .fault _ => .waiting s
      | .refused _ => .waiting s
    | .halted => runResult s
    | .outOfProgram => runResult s
    | .runtimeFault _ => runResult s

/-- `run()`. A claim that a run ends may not rest on the ceiling (93_implementation_defined.md U2). -/
def run (s : State) : RunResult := runFor Config.runCeiling s

/-- The exit conditions of the surrounding process; their code values are not specified
(60_exceptions.md R186, log 23). -/
inductive Exit where
  | fileReadFailure
  | assemblyFailure
  | runtimeFailure
  | success
  deriving DecidableEq, Repr

/-- The exit condition of an ended run; `none` while it waits for input. -/
def RunResult.exit : RunResult → Option Exit
  | .returned _ _ => some .success
  | .faulted _ _ => some .runtimeFailure
  | .waiting _ => none

/-- The surrounding process: the text of the source file (`none` when it could not be read), the trace
flag, the lines of input and the ceiling give the exit condition (60_exceptions.md R186). -/
def process (file : Option Text) (traceEn : Bool) (lines : List Text) (ceiling : Nat) : Option Exit :=
  match file with
  | none => some .fileReadFailure
  | some src =>
    match Asm.assemble src with
    | .error _ => some .assemblyFailure
    | .ok a =>
      match boot a.words (portResponses lines) traceEn with
      | none => some .assemblyFailure
      | some s => (runFor ceiling s).exit

end Sys2Proof.Machine
end

