-- ==== Sys2Proof/Machine/Print.lean ====
section
/-! DEFINITION. The printed form of an instruction (30_encoding.md R118, decision D15). -/

namespace Sys2Proof.Asm

/-- A number below 100000 in decimal, without leading zeros. -/
def decText (n : Nat) : Text :=
  match (Machine.dec5 n).dropWhile (· == '0') with
  | [] => ['0']
  | c :: cs => c :: cs

/-- `r` and the decimal index. -/
def regText (r : RegIdx) : Text := 'r' :: decText r.val

/-- A Word in unsigned decimal. -/
def wordText (w : Word) : Text := decText w.toNat

/-- Operands separated by a comma and a space. -/
def joinOperands : List Text → Text
  | [] => []
  | [t] => t
  | t :: u :: ts => t ++ [',', ' '] ++ joinOperands (u :: ts)

/-- The operands of an instruction in the order of 30_encoding.md R71. -/
def operandTexts : Instr → List Text
  | .add rd rs1 rs2 => [regText rd, regText rs1, regText rs2]
  | .sub rd rs1 rs2 => [regText rd, regText rs1, regText rs2]
  | .and rd rs1 rs2 => [regText rd, regText rs1, regText rs2]
  | .or rd rs1 rs2 => [regText rd, regText rs1, regText rs2]
  | .xor rd rs1 rs2 => [regText rd, regText rs1, regText rs2]
  | .addi rd rs1 imm => [regText rd, regText rs1, wordText imm]
  | .ld rd addr => [regText rd, wordText (mask16 addr)]
  | .st rs addr => [regText rs, wordText (mask16 addr)]
  | .beq rs1 rs2 target => [regText rs1, regText rs2, wordText target]
  | .bne rs1 rs2 target => [regText rs1, regText rs2, wordText target]
  | .jmp target => [wordText target]
  | .inp rd => [regText rd]
  | .out rs => [regText rs]
  | .halt => []

/-- The printed form: the mnemonic in upper case, a space, the operands. -/
def printInstr (i : Instr) : Text :=
  match operandTexts i with
  | [] => opcodeName i.opcode
  | t :: ts => opcodeName i.opcode ++ [' '] ++ joinOperands (t :: ts)

end Sys2Proof.Asm
end

