-- ==== Sys2Proof/Safety.lean ====
section
/-! DEFINITION. What the claims call a good state and a safe run. -/

namespace Sys2Proof.Machine

/-- What every state of a run keeps: the hard-wired register, the canonical memory, the limit on the
Program's length, no MemBounds (20_memory.md R54: no instruction word raises it), and the count and
trace in step (60_exceptions.md R182, R184). -/
structure State.Inv (s : State) : Prop where
  regZero : s.regs[0] = 0
  memWf : s.dmem.wf = true
  progFits : s.imem.length ≤ 65535
  noMemBounds : s.status ≠ .runtimeFault .memBounds
  traceOff : s.traceEn = false → s.trace = []
  traceOn : s.traceEn = true → s.trace.length = s.count

/-- The word at the index before `pc`: the instruction fetched last, where no jump followed it. -/
def State.wordBeforePc (s : State) : Option InstrWord :=
  if s.pc = 0 then none else s.imem[s.pc.toNat - 1]?

/-- What a stopped machine shows of the instruction that stopped it (10_state.md R38,
60_exceptions.md R168): after HALT, an IN fault or an illegal word it is the one before `pc`; after
OutOfProgram `pc` is the index outside the Program. -/
def State.StopExplained (s : State) : Prop :=
  match s.status with
  | .running => True
  | .halted => s.wordBeforePc = some 0xD0000000
  | .outOfProgram => s.imem.length ≤ s.pc.toNat
  | .runtimeFault .memBounds => False
  | .runtimeFault .unknownOpcode => ∃ w, s.wordBeforePc = some w ∧ (decode w).toOption = none
  | .runtimeFault .inMalformed => ∃ w rd, s.wordBeforePc = some w ∧ decode w = .legal (.inp rd)
  | .runtimeFault .inOutOfRange => ∃ w rd, s.wordBeforePc = some w ∧ decode w = .legal (.inp rd)
  | .runtimeFault .inEndOfInput => ∃ w rd, s.wordBeforePc = some w ∧ decode w = .legal (.inp rd)

/-- Every trace record shows an instruction of the Program at its index and at most one changed
register, never register 0 (60_exceptions.md R182, R183). -/
def State.TraceSound (s : State) : Prop :=
  ∀ r ∈ s.trace,
    (∃ w, s.imem[r.pc0.toNat]? = some w ∧ decode w = .legal r.insn) ∧
    r.changed.length ≤ 1 ∧ ∀ p ∈ r.changed, p.1 ≠ 0

/-- The states agree on everything but the trace enable and the trace records. -/
def State.SameButTrace (s t : State) : Prop :=
  t = { s with traceEn := t.traceEn, trace := t.trace }

/-- The machine has stopped: the status is terminal (10_state.md R32). -/
def State.Stopped (s : State) : Prop := s.status ≠ .running

/-- The step waits: it is the execution of an IN that the input source has not answered
(43_io.md R142). -/
def State.WaitsForInput (s : State) : Prop :=
  s.status = .running ∧ s.input = [] ∧ ∃ w rd, s.fetch = some w ∧ decode w = .legal (.inp rd)

/-- `t` is `s` but for the content of register `rd`: every other register reads as before, and the
memory at every address, `pc`, the status, the ports, the trace and the count are those of `s`. -/
def State.OnlyRegister (rd : RegIdx) (s t : State) : Prop :=
  t = { s with regs := t.regs } ∧ ∀ r, r ≠ rd → t.readReg r = s.readReg r

/-- `t` is `s` but for the Word at address `a`: every other address reads as before, and the
registers, `pc`, the status, the ports, the trace and the count are those of `s`. -/
def State.OnlyMemory (a : Nat) (s t : State) : Prop :=
  t = { s with dmem := t.dmem } ∧ ∀ b, b ≠ a → t.memRead b = s.memRead b

/-- The instruction the step at `s` executes. -/
def State.Executes (s : State) (i : Instr) : Prop :=
  s.status = .running ∧ ∃ w, s.fetch = some w ∧ decode w = .legal i

/-- The step at `s` executes a word that is no instruction. -/
def State.ExecutesIllegal (s : State) : Prop :=
  s.status = .running ∧ ∃ w, s.fetch = some w ∧ (decode w).toOption = none

/-- A step that completes. -/
def State.Safe (s : State) : Prop := ∃ t, step s = .next t

end Sys2Proof.Machine

namespace Sys2Proof

/-- The registers an instruction reads (10_state.md R25). -/
def Instr.sources : Instr → List RegIdx
  | .add _ rs1 rs2 => [rs1, rs2]
  | .sub _ rs1 rs2 => [rs1, rs2]
  | .and _ rs1 rs2 => [rs1, rs2]
  | .or _ rs1 rs2 => [rs1, rs2]
  | .xor _ rs1 rs2 => [rs1, rs2]
  | .addi _ rs1 _ => [rs1]
  | .ld _ _ => []
  | .st rs _ => [rs]
  | .beq rs1 rs2 _ => [rs1, rs2]
  | .bne rs1 rs2 _ => [rs1, rs2]
  | .jmp _ => []
  | .inp _ => []
  | .out rs => [rs]
  | .halt => []

/-- The register an instruction writes (10_state.md R25). -/
def Instr.dest? : Instr → Option RegIdx
  | .add rd _ _ => some rd
  | .sub rd _ _ => some rd
  | .and rd _ _ => some rd
  | .or rd _ _ => some rd
  | .xor rd _ _ => some rd
  | .addi rd _ _ => some rd
  | .ld rd _ => some rd
  | .st _ _ => none
  | .beq _ _ _ => none
  | .bne _ _ _ => none
  | .jmp _ => none
  | .inp rd => some rd
  | .out _ => none
  | .halt => none

/-- The same instruction with destination register `r`; an instruction without one as it is. -/
def Instr.withDest (r : RegIdx) : Instr → Instr
  | .add _ rs1 rs2 => .add r rs1 rs2
  | .sub _ rs1 rs2 => .sub r rs1 rs2
  | .and _ rs1 rs2 => .and r rs1 rs2
  | .or _ rs1 rs2 => .or r rs1 rs2
  | .xor _ rs1 rs2 => .xor r rs1 rs2
  | .addi _ rs1 imm => .addi r rs1 imm
  | .ld _ addr => .ld r addr
  | .st rs addr => .st rs addr
  | .beq rs1 rs2 target => .beq rs1 rs2 target
  | .bne rs1 rs2 target => .bne rs1 rs2 target
  | .jmp target => .jmp target
  | .inp _ => .inp r
  | .out rs => .out rs
  | .halt => .halt

/-- The opcode map of 30_encoding.md R76, its `match` and `mask` columns written out. -/
def opcodeMap : List (Opcode × InstrWord × InstrWord) :=
  [(.add, 0x00000000, 0xF003FFE0), (.sub, 0x10000000, 0xF003FFE0), (.and, 0x20000000, 0xF003FFE0),
   (.or, 0x30000000, 0xF003FFE0), (.xor, 0x40000000, 0xF003FFE0), (.addi, 0x50000000, 0xF0030000),
   (.ld, 0x60000000, 0xF07F0000)] ++
  [(.st, 0x70000000, 0xF07F0000), (.beq, 0x80000000, 0xF0030000), (.bne, 0x90000000, 0xF0030000),
   (.jmp, 0xA0000000, 0xFFFF0000), (.inp, 0xB0000000, 0xF07FFFFF), (.out, 0xC0000000, 0xF07FFFFF),
   (.halt, 0xD0000000, 0xFFFFFFFF)]

/-- The characters of white space (30_encoding.md R110, decision D25). -/
def whiteSpace : Text := [' ', '\t', '\r', '\n', '\x0b', '\x0c']

/-- The decimal digits with their values (30_encoding.md R110). -/
def decDigitTable : List (Char × Nat) :=
  [('0', 0), ('1', 1), ('2', 2), ('3', 3), ('4', 4), ('5', 5), ('6', 6), ('7', 7), ('8', 8), ('9', 9)]

/-- The hexadecimal digits with their values, both cases (30_encoding.md R110, R112). -/
def hexDigitTable : List (Char × Nat) :=
  decDigitTable ++
  [('a', 10), ('b', 11), ('c', 12), ('d', 13), ('e', 14), ('f', 15)] ++
  [('A', 10), ('B', 11), ('C', 12), ('D', 13), ('E', 14), ('F', 15)]

/-- One or more digits of a base and the number they write. -/
inductive DigitsValue (base : Nat) (table : List (Char × Nat)) : Text → Nat → Prop where
  | one {c : Char} {d : Nat} (h : (c, d) ∈ table) : DigitsValue base table [c] d
  | snoc {ds : Text} {n : Nat} {c : Char} {d : Nat} (hs : DigitsValue base table ds n)
      (h : (c, d) ∈ table) : DigitsValue base table (ds ++ [c]) (n * base + d)

/-- The numeric literal grammar as the spec writes it: white space around `[ sign ] [ prefix ]
digits`, the value negated when the sign is `-` (30_encoding.md R110). -/
def IsLiteral (t : Text) (n : Int) : Prop :=
  ∃ (before sign pre ds after : Text) (m : Nat),
    t = before ++ sign ++ pre ++ ds ++ after ∧
    (∀ c ∈ before ++ after, c ∈ whiteSpace) ∧
    ((sign = [] ∧ n = m) ∨ (sign = ['+'] ∧ n = m) ∨ (sign = ['-'] ∧ n = -(m : Int))) ∧
    ((pre = [] ∧ DigitsValue 10 decDigitTable ds m) ∨
      ((pre = ['0', 'x'] ∨ pre = ['0', 'X']) ∧ DigitsValue 16 hexDigitTable ds m))

end Sys2Proof
end

