-- ==== Sys2Proof/Certificates/Slice0/Obligations.lean ====
section
/-! DEFINITION. The statements about the machine, the assembler and the host side, each with the rule
of spec/ it formalises. -/

open Sys2Proof Sys2Proof.Machine

/-! ### Encoding -/

/-- Words written out in 95_test_vectors.md (V2, V4 to V7, V10, V12, V14, V16, V18, V19, V21, V23, V25,
X1, X4) decode as 30_encoding.md R75 says; the bit positions are the spec's decisions D1 to D4. -/
def Obligations.SampleWordsDecode : Prop :=
  decode 0x01840002 = .legal (.add 3 1 2) ∧
  decode 0x11840002 = .legal (.sub 3 1 2) ∧
  decode 0x21840002 = .legal (.and 3 1 2) ∧
  decode 0x31840002 = .legal (.or 3 1 2) ∧
  decode 0x41840002 = .legal (.xor 3 1 2) ∧
  decode 0x5084000A = .legal (.addi 1 1 10) ∧
  decode 0x61000020 = .legal (.ld 2 32) ∧
  decode 0x70800020 = .legal (.st 1 32) ∧
  decode 0x80880005 = .legal (.beq 1 2 5) ∧
  decode 0x90880005 = .legal (.bne 1 2 5) ∧
  decode 0xA0000006 = .legal (.jmp 6) ∧
  decode 0xB0800000 = .legal (.inp 1) ∧
  decode 0xC0800000 = .legal (.out 1) ∧
  decode 0xD0000000 = .legal .halt ∧
  decode 0xE0000000 = .illegal .unassignedOpcode ∧
  decode 0x00000020 = .illegal .mustBeZeroBits

/-- 30_encoding.md R83 (the spec derives it): "For every legal instruction `i`,
`decode(encode(i)) = i`", for every operand value the encoding admits. -/
def Obligations.EncodeThenDecodeIsIdentity : Prop :=
  ∀ i : Instr, i.wf = true → decode (encode i) = .legal i

/-- 30_encoding.md R83 (the spec derives it): "for every word `w` with `decode(w)` not `Illegal`, `encode(decode(w)) = w`";
and a decoded instruction is well-formed. -/
def Obligations.DecodeThenEncodeIsIdentity : Prop :=
  ∀ (w : InstrWord) (i : Instr), decode w = .legal i → i.wf = true ∧ encode i = w

/-- 30_encoding.md R76: with the `match` and `mask` columns (the spec's decision D3) written out in
`opcodeMap`, a word decodes to an instruction of a row exactly when `(w & mask) == match`; so at most one row matches a word. -/
def Obligations.OpcodeMapRowMatchesExactly : Prop :=
  (∀ row ∈ opcodeMap, ∀ w : InstrWord,
    (∃ i, decode w = .legal i ∧ i.opcode = row.1) ↔ w &&& row.2.2 = row.2.1) ∧
  (∀ o : Opcode, ∃ row ∈ opcodeMap, row.1 = o) ∧
  (∀ w : InstrWord, ∀ row ∈ opcodeMap, ∀ row' ∈ opcodeMap,
    w &&& row.2.2 = row.2.1 → w &&& row'.2.2 = row'.2.1 → row = row')

/-- 30_encoding.md R79, the spec's decision D4: a must-be-zero bit of the word's own format that is not
zero makes the word Illegal, and executing it raises UnknownOpcode. -/
def Obligations.NonzeroSpareBitIsIllegal : Prop :=
  ∀ (w : InstrWord) (o : Opcode) (n : Nat),
    w.extractLsb' 28 4 = o.number → o.format.mustBeZero.getLsbD n = true → w.getLsbD n = true →
    decode w = .illegal .mustBeZeroBits ∧
    ∀ s : State, s.status = .running → s.fetch = some w →
      step s = .next { s with pc := s.pc + 1, status := .runtimeFault .unknownOpcode }

/-- 30_encoding.md R80, the spec's decisions D3 and D4: a word with `op` 0xE or 0xF is Illegal whatever its other bits. -/
def Obligations.UnassignedOpcodeIsIllegal : Prop :=
  ∀ w : InstrWord, 0xE0000000 ≤ w.toNat → decode w = .illegal .unassignedOpcode

/-! ### The instruction cycle -/

/-- 10_state.md R37, the whole step: a stopped machine does nothing; outside the Program the status
becomes OutOfProgram and nothing else changes; an Illegal word faults with `pc` advanced; otherwise
the step is the execution of the decoded instruction in the state with `pc` advanced by one, counted
and traced unless it raised a fault, and it waits exactly where the execution waits. -/
def Obligations.StepRunsTheDecodedInstruction : Prop :=
  ∀ s : State,
    (s.status ≠ .running → step s = .next s) ∧
    (s.status = .running → s.imem.length ≤ s.pc.toNat →
      step s = .next { s with status := .outOfProgram }) ∧
    (∀ w why, s.status = .running → s.imem[s.pc.toNat]? = some w → decode w = .illegal why →
      step s = .next { s with pc := s.pc + 1, status := .runtimeFault .unknownOpcode }) ∧
    (∀ w i, s.status = .running → s.imem[s.pc.toNat]? = some w → decode w = .legal i →
      (∀ f, exec i { s with pc := s.pc + 1 } = .fault f → step s = .fault f) ∧
      ∀ t, exec i { s with pc := s.pc + 1 } = .next t →
        step s = .next
          (if t.status.isFault then t
          else { t with
            count := t.count + 1
            trace := if t.traceEn then t.trace ++ [⟨s.pc, i, changedRegs s t⟩] else t.trace }))

/-- 44_system.md R161; which words are Illegal is the spec's decisions D3 and D4, and that no encoded
instruction is one the spec derives from R83: executing an Illegal word raises UnknownOpcode, the fetch and the advance done
and nothing else changed; the Illegal words are those with `op` 0xE or 0xF and those with a nonzero
must-be-zero field; no encoded instruction is one. -/
def Obligations.IllegalWordRaisesUnknownOpcode : Prop :=
  (∀ s : State, s.ExecutesIllegal →
    step s = .next { s with pc := s.pc + 1, status := .runtimeFault .unknownOpcode }) ∧
  (∀ w : InstrWord, (decode w).toOption = none ↔
    14 ≤ (w.extractLsb' 28 4).toNat ∨
      ∃ o : Opcode, w.extractLsb' 28 4 = o.number ∧ w &&& o.format.mustBeZero ≠ 0) ∧
  (∀ i : Instr, i.wf = true → (decode (encode i)).toOption ≠ none)

/-- 10_state.md R32, the spec's decision D8: Halted, OutOfProgram and RuntimeFault are terminal; further
steps, however many, change nothing at all, and reset leaves them. -/
def Obligations.StoppedMachineChangesNothing : Prop :=
  ∀ s : State, s.Stopped →
    (∀ n, Sys2Proof.core.run n s = .next s) ∧ ∀ b, (s.applyReset b).status = .running

/-- 10_state.md R31: the status is Running after reset and changes only from Running: to Halted by a
HALT, to OutOfProgram by a step that begins outside the Program, to RuntimeFault by an Illegal word
or an IN, the cause recorded beside it. -/
def Obligations.StatusChangesOnlyAsListed : Prop :=
  State.reset.status = .running ∧
  ∀ s t : State, step s = .next t → t.status ≠ s.status →
    s.status = .running ∧
    ((t.status = .halted ∧ s.Executes .halt) ∨
     (t.status = .outOfProgram ∧ s.imem.length ≤ s.pc.toNat) ∨
     (t.status = .runtimeFault .unknownOpcode ∧ s.ExecutesIllegal) ∨
     ∃ rd, s.Executes (.inp rd) ∧
      ((t.status = .runtimeFault .inEndOfInput ∧ s.input.head? = some .endOfInput) ∨
       (t.status = .runtimeFault .inMalformed ∧ s.input.head? = some .malformed) ∨
       (t.status = .runtimeFault .inOutOfRange ∧ s.input.head? = some .outOfRange)))

/-- 10_state.md R29: outside the Program nothing changes but the status; inside it `pc` goes to the
target of a JMP, of a BEQ whose registers are equal and of a BNE whose registers differ, and to
`pc + 1` after everything else. -/
def Obligations.PcAfterStep : Prop :=
  ∀ s t : State, s.status = .running → step s = .next t →
    (s.fetch = none → t = { s with status := t.status }) ∧
    ∀ w, s.fetch = some w →
      t.pc = match decode w with
        | .legal (.jmp target) => target
        | .legal (.beq rs1 rs2 target) =>
          if s.readReg rs1 = s.readReg rs2 then target else s.pc + 1
        | .legal (.bne rs1 rs2 target) =>
          if s.readReg rs1 ≠ s.readReg rs2 then target else s.pc + 1
        | _ => s.pc + 1

/-- Every step keeps `State.Inv`: the stored slot of register 0 stays zero, the data memory keeps its
canonical form, the Program stays within 65535 instructions, MemBounds is never raised
(20_memory.md R54), and the count and the trace stay in step (60_exceptions.md R182, R184). -/
def Obligations.StepKeepsTheInvariant : Prop :=
  ∀ s t : State, s.Inv → step s = .next t → t.Inv

/-- The reset state meets the three invariants; that its trace is off and empty is the model's choice
(log 9). -/
def Obligations.ResetMeetsTheInvariants : Prop :=
  State.reset.Inv ∧ State.reset.StopExplained ∧ State.reset.TraceSound

/-- Every launch, with whatever initial register and memory contents (10_state.md R40,
93_implementation_defined.md U1) and whatever Program of at most 65535 instructions (U12), starts in
a state that meets the three invariants, Running at index 0; a longer Program is not admitted. -/
def Obligations.LaunchMeetsTheInvariants : Prop :=
  ∀ l : Launch,
    (l.prog.length ≤ 65535 → ∃ s, bootWith l = some s ∧ s.Inv ∧ s.StopExplained ∧ s.TraceSound ∧
      s.pc = 0 ∧ s.status = .running ∧ s.imem = l.prog ∧ s.input = l.input ∧ s.traceEn = l.traceEn) ∧
    (65535 < l.prog.length → bootWith l = none)

/-- 10_state.md R38 (the spec derives it) and 60_exceptions.md R168, for every state that meets the invariants: when the
machine has stopped by HALT, by an IN fault or by an Illegal word, the instruction before `pc` is the
one that stopped it; after OutOfProgram `pc` is outside the Program. -/
def Obligations.StepKeepsStopExplained : Prop :=
  ∀ s t : State, s.Inv → s.StopExplained → step s = .next t → t.StopExplained

/-- Every trace record shows the instruction the Program holds at its index and at most one changed
register, never register 0 (60_exceptions.md R182 and R183, decision D15); every step keeps this. -/
def Obligations.StepKeepsTraceSound : Prop :=
  ∀ s t : State, s.TraceSound → step s = .next t → t.TraceSound

/-- 60_exceptions.md R181: the enable is fixed for the run; two runs that start alike but for tracing
pass through states alike but for tracing, and stop waiting at the same step. That reset samples the
enable is the spec's decision D11. -/
def Obligations.TraceNeverAffectsTheMachine : Prop :=
  (∀ (s : State) (b : Bool), (s.applyReset b).traceEn = b) ∧
  ∀ (n : Nat) (s₁ s₂ : State), s₁.SameButTrace s₂ →
    (∀ t₁, Sys2Proof.core.run n s₁ = .next t₁ → t₁.traceEn = s₁.traceEn ∧
      ∃ t₂, Sys2Proof.core.run n s₂ = .next t₂ ∧ State.SameButTrace t₁ t₂) ∧
    ∀ f, Sys2Proof.core.run n s₁ = .fault f → Sys2Proof.core.run n s₂ = .fault f

/-- A step does not complete exactly when it waits inside an IN that has not been answered; it is then
the model's stuck state (93_implementation_defined.md U9, log 7), never a refusal, and any answer lets
it complete (70_reset_and_hazards.md R199). -/
def Obligations.StepWaitsOnlyForInput : Prop :=
  ∀ s : State,
    ((¬ s.Safe) ↔ s.WaitsForInput) ∧
    (s.WaitsForInput → step s = .fault .awaitingInput ∧
      ∀ r rest, State.Safe { s with input := r :: rest })

/-- 20_memory.md R55: no step, and so no run, changes the Program, and no execution reads it: with
another Program in place the same instruction does the same. -/
def Obligations.ProgramIsReadOnly : Prop :=
  (∀ (n : Nat) (s t : State), Sys2Proof.core.run n s = .next t → t.imem = s.imem) ∧
  ∀ (i : Instr) (s : State) (prog : List InstrWord),
    (∀ t, exec i s = .next t → exec i { s with imem := prog } = .next { t with imem := prog }) ∧
    ∀ f, exec i s = .fault f → exec i { s with imem := prog } = .fault f

/-- Only ST writes the data memory and only LD reads it (10_state.md R27, 41_loadstore.md R132): no
other execution changes it, and every execution but those of LD and ST does the same with another
memory in place. -/
def Obligations.OnlyLdAndStReachDataMemory : Prop :=
  (∀ (i : Instr) (s t : State), exec i s = .next t → i.opcode ≠ .st → t.dmem = s.dmem) ∧
  ∀ (i : Instr) (s t : State) (m : Memory), exec i s = .next t → i.opcode ≠ .ld → i.opcode ≠ .st →
    exec i { s with dmem := m } = .next { t with dmem := m }

/-- Only IN takes from the input port, one answer at most, and only OUT hands the output port a Word,
one (43_io.md R150): what earlier steps emitted is never taken back. -/
def Obligations.OnlyInAndOutTouchThePorts : Prop :=
  ∀ s t : State, step s = .next t →
    (t.input = s.input ∨ ∃ rd r, s.Executes (.inp rd) ∧ s.input = r :: t.input) ∧
    (t.output = s.output ∨
      ∃ rs, s.Executes (.out rs) ∧ t.output = s.output ++ [s.readReg rs])

/-- 10_state.md R25: an instruction reads only the registers the table lists for it and writes only
the one listed: in two states that differ in nothing but registers and agree on the listed sources,
its execution answers alike, writes the same Word to its destination (or, on a fault, nothing) and
leaves every other register as it was. -/
def Obligations.ExecUsesOnlyTheListedRegisters : Prop :=
  ∀ (i : Instr) (s : State) (f : RegFile),
    (∀ r ∈ i.sources, State.readReg { s with regs := f } r = s.readReg r) →
    (∀ e, exec i s = .fault e → exec i { s with regs := f } = .fault e) ∧
    ∀ t, exec i s = .next t →
      (∀ r, some r ≠ i.dest? → t.readReg r = s.readReg r) ∧
      ∃ t', exec i { s with regs := f } = .next t' ∧ t' = { t with regs := t'.regs } ∧
        (∀ r, some r ≠ i.dest? → t'.readReg r = State.readReg { s with regs := f } r) ∧
        ((∀ r, some r = i.dest? → t'.readReg r = t.readReg r) ∨
          (t.status.isFault = true ∧ t.regs = s.regs ∧ t'.regs = f))

/-- 10_state.md R23: the same instruction with register 0 as its destination does everything else it
does and leaves the registers as they were; register 0 still reads 0x0000. -/
def Obligations.WriteToRegisterZeroIsDiscarded : Prop :=
  ∀ (i : Instr) (s : State), i.dest? ≠ none →
    (∀ t, exec i s = .next t →
      exec (i.withDest 0) s = .next { t with regs := s.regs } ∧
      State.readReg { t with regs := s.regs } 0 = 0) ∧
    ∀ e, exec i s = .fault e → exec (i.withDest 0) s = .fault e

/-! ### Arithmetic and logic -/

/-- 40_alu.md R121. -/
def Obligations.AddWritesTheMaskedSum : Prop :=
  ∀ rd rs1 rs2 : RegIdx,
    decode (packFields 0x0 (regField rd) (regField rs1) 0 (0#11 ++ regField rs2))
      = .legal (.add rd rs1 rs2) ∧
    ∀ s : State, ∃ t, exec (.add rd rs1 rs2) s = .next t ∧ s.OnlyRegister rd t ∧
      (t.readReg rd).toNat =
        if rd = 0 then 0 else ((s.readReg rs1).toNat + (s.readReg rs2).toNat) % 65536

/-- 40_alu.md R122, the masked difference as R120 writes it. -/
def Obligations.SubWritesTheMaskedDifference : Prop :=
  ∀ rd rs1 rs2 : RegIdx,
    decode (packFields 0x1 (regField rd) (regField rs1) 0 (0#11 ++ regField rs2))
      = .legal (.sub rd rs1 rs2) ∧
    ∀ s : State, ∃ t, exec (.sub rd rs1 rs2) s = .next t ∧ s.OnlyRegister rd t ∧
      (t.readReg rd).toNat =
        if rd = 0 then 0
        else if (s.readReg rs2).toNat ≤ (s.readReg rs1).toNat then
          (s.readReg rs1).toNat - (s.readReg rs2).toNat
        else (s.readReg rs1).toNat + 65536 - (s.readReg rs2).toNat

/-- 40_alu.md R123. -/
def Obligations.AndWritesBitByBit : Prop :=
  ∀ rd rs1 rs2 : RegIdx,
    decode (packFields 0x2 (regField rd) (regField rs1) 0 (0#11 ++ regField rs2))
      = .legal (.and rd rs1 rs2) ∧
    ∀ s : State, ∃ t, exec (.and rd rs1 rs2) s = .next t ∧ s.OnlyRegister rd t ∧
      ∀ n, n < 16 → ((t.readReg rd).getLsbD n = true ↔
        rd ≠ 0 ∧ (s.readReg rs1).getLsbD n = true ∧ (s.readReg rs2).getLsbD n = true)

/-- 40_alu.md R124. -/
def Obligations.OrWritesBitByBit : Prop :=
  ∀ rd rs1 rs2 : RegIdx,
    decode (packFields 0x3 (regField rd) (regField rs1) 0 (0#11 ++ regField rs2))
      = .legal (.or rd rs1 rs2) ∧
    ∀ s : State, ∃ t, exec (.or rd rs1 rs2) s = .next t ∧ s.OnlyRegister rd t ∧
      ∀ n, n < 16 → ((t.readReg rd).getLsbD n = true ↔
        rd ≠ 0 ∧ ((s.readReg rs1).getLsbD n = true ∨ (s.readReg rs2).getLsbD n = true))

/-- 40_alu.md R125. -/
def Obligations.XorWritesBitByBit : Prop :=
  ∀ rd rs1 rs2 : RegIdx,
    decode (packFields 0x4 (regField rd) (regField rs1) 0 (0#11 ++ regField rs2))
      = .legal (.xor rd rs1 rs2) ∧
    ∀ s : State, ∃ t, exec (.xor rd rs1 rs2) s = .next t ∧ s.OnlyRegister rd t ∧
      ∀ n, n < 16 → ((t.readReg rd).getLsbD n = true ↔
        rd ≠ 0 ∧ (s.readReg rs1).getLsbD n ≠ (s.readReg rs2).getLsbD n)

/-- 40_alu.md R126: the immediate is the 16-bit field as it stands, not extended. -/
def Obligations.AddiWritesTheMaskedSum : Prop :=
  ∀ (rd rs1 : RegIdx) (imm : Word),
    decode (packFields 0x5 (regField rd) (regField rs1) 0 imm) = .legal (.addi rd rs1 imm) ∧
    ∀ s : State, ∃ t, exec (.addi rd rs1 imm) s = .next t ∧ s.OnlyRegister rd t ∧
      (t.readReg rd).toNat = if rd = 0 then 0 else ((s.readReg rs1).toNat + imm.toNat) % 65536

/-! ### Load and store -/

/-- 41_loadstore.md R130: for every address an instruction word can hold, LD reads the Word at the
address as it stands into `rd`. The clause on an address outside 0 to 65535, which raises MemBounds
before the access, is there because the model's LD carries an integer address (log 11, DEDUCED;
93_implementation_defined.md U5 lets a model leave the case out); that no word holds such an address
the spec derives in 20_memory.md R54. -/
def Obligations.LdReadsTheWordAtTheAddress : Prop :=
  ∀ (rd : RegIdx) (s : State),
    (∀ k : BitVec 16,
      decode (packFields 0x6 (regField rd) 0 0 k) = .legal (.ld rd (k.toNat : Int)) ∧
      ∃ t, exec (.ld rd (k.toNat : Int)) s = .next t ∧ s.OnlyRegister rd t ∧
        t.readReg rd = if rd = 0 then 0 else s.memRead k.toNat) ∧
    ∀ addr : Int, addr < 0 ∨ 65535 < addr →
      exec (.ld rd addr) s = .next { s with status := .runtimeFault .memBounds } ∧
      ∀ w, decode w ≠ .legal (.ld rd addr)

/-- 41_loadstore.md R131: for every address an instruction word can hold, ST stores the register's Word
at the effective address, which is the address as it stands, and changes no other address and no
register. The clause on an address outside 0 to 65535, which raises MemBounds, is there because the
model's ST carries an integer address (log 11, DEDUCED; 93_implementation_defined.md U5 lets a model
leave the case out); that no word holds such an address the spec derives in 20_memory.md R54. The
memory is in its canonical form, which every step keeps. -/
def Obligations.StStoresTheWordAtTheAddress : Prop :=
  ∀ (rs : RegIdx) (s : State), s.dmem.wf = true →
    (∀ k : BitVec 16,
      decode (packFields 0x7 (regField rs) 0 0 k) = .legal (.st rs (k.toNat : Int)) ∧
      effectiveAddr (k.toNat : Int) = some k.toNat) ∧
    (∀ (addr : Int) (a : Nat), effectiveAddr addr = some a →
      ∃ t, exec (.st rs addr) s = .next t ∧ s.OnlyMemory a t ∧ t.memRead a = s.readReg rs) ∧
    ∀ addr : Int, addr < 0 ∨ 65535 < addr →
      effectiveAddr addr = none ∧
      exec (.st rs addr) s = .next { s with status := .runtimeFault .memBounds } ∧
      ∀ w, decode w ≠ .legal (.st rs addr)

/-- 20_memory.md R61: a LD from address `A` returns the Word written by the latest earlier ST to `A`
in execution order, with whatever number of steps between that store no Word to `A`. -/
def Obligations.LoadReturnsTheLatestStore : Prop :=
  ∀ (s s₁ t u : State) (rs rd : RegIdx) (k : BitVec 16) (n : Nat), s.Inv →
    s.Executes (.st rs (k.toNat : Int)) → step s = .next s₁ →
    Sys2Proof.core.run n s₁ = .next t →
    (∀ m v q, m < n → Sys2Proof.core.run m s₁ = .next v → ¬ v.Executes (.st q (k.toNat : Int))) →
    t.Executes (.ld rd (k.toNat : Int)) → step t = .next u →
    u.readReg rd = if rd = 0 then 0 else s.readReg rs

/-- The canonical form holds one list for each content: two canonical memories that read alike at every
address are the same list (log 1). -/
def Obligations.EqualReadsMeanEqualMemories : Prop :=
  ∀ m m' : Memory, m.wf = true → m'.wf = true → (∀ a, a < 65536 → m.read a = m'.read a) → m = m'

/-! ### Control transfer -/

/-- 42_branch_jump.md R135. -/
def Obligations.BeqBranchesWhenEqual : Prop :=
  ∀ (rs1 rs2 : RegIdx) (target : PC),
    decode (packFields 0x8 (regField rs1) (regField rs2) 0 target) = .legal (.beq rs1 rs2 target) ∧
    ∀ s : State, exec (.beq rs1 rs2 target) s =
      .next { s with pc := if s.readReg rs1 = s.readReg rs2 then target else s.pc }

/-- 42_branch_jump.md R136. -/
def Obligations.BneBranchesWhenDifferent : Prop :=
  ∀ (rs1 rs2 : RegIdx) (target : PC),
    decode (packFields 0x9 (regField rs1) (regField rs2) 0 target) = .legal (.bne rs1 rs2 target) ∧
    ∀ s : State, exec (.bne rs1 rs2 target) s =
      .next { s with pc := if s.readReg rs1 ≠ s.readReg rs2 then target else s.pc }

/-- 42_branch_jump.md R137. -/
def Obligations.JmpSetsThePc : Prop :=
  ∀ target : PC,
    decode (packFields 0xA 0 0 0 target) = .legal (.jmp target) ∧
    ∀ s : State, exec (.jmp target) s = .next { s with pc := target }

/-! ### Input, output, HALT -/

/-- 43_io.md R140, one clause for each answer of the input port: a Value is written to `rd`; each other
answer raises its fault, and then no register is written; every answer takes its line, but for the end
of input, where there is none to take. -/
def Obligations.InTakesOneAnswer : Prop :=
  ∀ rd : RegIdx,
    decode (packFields 0xB (regField rd) 0 0 0) = .legal (.inp rd) ∧
    ∀ (s : State) (rest : List InResp),
      (∀ v, s.input = .value v :: rest →
        ∃ t, exec (.inp rd) s = .next t ∧ State.OnlyRegister rd { s with input := rest } t ∧
          t.readReg rd = if rd = 0 then 0 else v) ∧
      (s.input = .endOfInput :: rest →
        exec (.inp rd) s = .next { s with status := .runtimeFault .inEndOfInput }) ∧
      (s.input = .malformed :: rest →
        exec (.inp rd) s =
          .next { s with input := rest, status := .runtimeFault .inMalformed }) ∧
      (s.input = .outOfRange :: rest →
        exec (.inp rd) s =
          .next { s with input := rest, status := .runtimeFault .inOutOfRange })

/-- 43_io.md R145, with the sink's order of 43_io.md R146. -/
def Obligations.OutHandsOverTheWord : Prop :=
  ∀ rs : RegIdx,
    decode (packFields 0xC (regField rs) 0 0 0) = .legal (.out rs) ∧
    ∀ s : State, exec (.out rs) s = .next { s with output := s.output ++ [s.readReg rs] }

/-- 44_system.md R160: the one word 0xD0000000; the execution sets the status to Halted and nothing
else; the step leaves `pc` one after the HALT, counts it, and when tracing gives it a record with no
register changes. -/
def Obligations.HaltStopsTheMachine : Prop :=
  (∀ w : InstrWord, decode w = .legal .halt ↔ w = 0xD0000000) ∧
  (∀ s : State, exec .halt s = .next { s with status := .halted }) ∧
  ∀ s : State, s.Executes .halt →
    step s = .next { s with
      pc := s.pc + 1
      status := .halted
      count := s.count + 1
      trace := if s.traceEn then s.trace ++ [⟨s.pc, .halt, []⟩] else s.trace }

/-! ### Faults, status, reset -/

/-- 60_exceptions.md R171 (the spec derives it): a faulting step has changed nothing but `pc`, which is one further, the
status with its cause, and the line IN consumed; registers, memory, output, count and trace are as
the earlier instructions left them. -/
def Obligations.FaultLeavesStateAsLastMutated : Prop :=
  ∀ (s t : State) (c : Cause), s.status = .running → step s = .next t →
    t.status = .runtimeFault c →
    t = { s with pc := s.pc + 1, status := .runtimeFault c, input := t.input } ∧
    (t.input = s.input ∨ ∃ rd r, s.Executes (.inp rd) ∧ s.input = r :: t.input)

/-- 10_state.md R33 with the cause codes of 60_exceptions.md R167; codes 6 and 7 are never produced.
The numbers are the spec's decisions D9 and D10. -/
def Obligations.StatusPortEncodesStatusAndCause : Prop :=
  ∀ s : State,
    (s.statusPort.extractLsb' 0 2 = match s.status with
      | .running => 0 | .halted => 1 | .outOfProgram => 2 | .runtimeFault _ => 3) ∧
    (s.statusPort.extractLsb' 2 3 = match s.status with
      | .runtimeFault .memBounds => 1
      | .runtimeFault .inMalformed => 2
      | .runtimeFault .inOutOfRange => 3
      | .runtimeFault .inEndOfInput => 4
      | .runtimeFault .unknownOpcode => 5
      | _ => 0) ∧
    s.statusPort.extractLsb' 2 3 ≠ 6 ∧ s.statusPort.extractLsb' 2 3 ≠ 7

/-- 10_state.md R40, the reset values; the zeros of registers 1 to 31 and of the data memory are the
spec's decision D7 (logs 2, 3). -/
def Obligations.ResetLeavesTheListedValues : Prop :=
  State.reset.pc = 0 ∧ State.reset.status = .running ∧ State.reset.statusPort = 0 ∧
  (∀ r, State.reset.readReg r = 0) ∧ (∀ a, State.reset.memRead a = 0) ∧ State.reset.count = 0

/-- 70_reset_and_hazards.md R190: the reset event puts every piece of architectural state at its reset
value and samples `trace_en`, whatever the machine did before; that the Program stays, the input is
not rewound and the run's records start empty is log 13. -/
def Obligations.ResetEventInheritsNothing : Prop :=
  ∀ (s : State) (b : Bool),
    s.applyReset b = { State.reset with imem := s.imem, input := s.input, traceEn := b } ∧
    (s.imem.length ≤ 65535 →
      (s.applyReset b).Inv ∧ (s.applyReset b).StopExplained ∧ (s.applyReset b).TraceSound)

/-! ### Count, trace, driver -/

/-- 60_exceptions.md R184, the spec's decision D14: the count is 0 at reset, goes up by one for every instruction that completes
without faulting, HALT included, and for nothing else; `run()` returns it. -/
def Obligations.CountIsOfCompletedInstructions : Prop :=
  State.reset.count = 0 ∧
  (∀ s t : State, step s = .next t →
    (s.Stopped ∨ s.fetch = none ∨ s.ExecutesIllegal → t.count = s.count) ∧
    ∀ i, s.Executes i → t.count = if t.status.isFault then s.count else s.count + 1) ∧
  ∀ (n c : Nat) (s t : State), runFor n s = .returned c t → c = t.count

/-- 60_exceptions.md R182, the spec's decision D15: with tracing on, each completed instruction adds one record of the index it
was fetched from, the instruction, and exactly the registers whose value changed with their new
values; a fault, an OutOfProgram report and a machine with tracing off add none. -/
def Obligations.TraceRecordPerCompletedInstruction : Prop :=
  ∀ s t : State, step s = .next t →
    (s.traceEn = false ∨ t.status.isFault = true ∨ s.Stopped ∨ s.fetch = none →
      t.trace = s.trace) ∧
    ∀ i, s.traceEn = true → t.status.isFault = false → s.Executes i →
      ∃ changed, t.trace = s.trace ++ [⟨s.pc, i, changed⟩] ∧
        ∀ r v, (r, v) ∈ changed ↔ t.readReg r ≠ s.readReg r ∧ v = t.readReg r

/-- 60_exceptions.md R185, the spec's decision D14: `run()` makes at most as many steps as its ceiling; it returns from a
Halted or OutOfProgram state or, the status still Running, after exactly the ceiling's number of
steps; a RuntimeFault leaves it as an error; it waits only inside an IN. -/
def Obligations.RunStopsWhereTheDriverSays : Prop :=
  ∀ (n : Nat) (s : State),
    (∀ c t, runFor n s = .returned c t → ∃ m, m ≤ n ∧ Sys2Proof.core.run m s = .next t ∧
      (t.status = .halted ∨ t.status = .outOfProgram ∨ (t.status = .running ∧ m = n))) ∧
    (∀ c t, runFor n s = .faulted c t →
      ∃ m, m ≤ n ∧ Sys2Proof.core.run m s = .next t ∧ t.status = .runtimeFault c) ∧
    ∀ t, runFor n s = .waiting t →
      ∃ m, m < n ∧ Sys2Proof.core.run m s = .next t ∧ t.WaitsForInput

/-- 70_reset_and_hazards.md R198: a JMP to its own index never ends; the driver stops at its ceiling,
whatever it is, silently, the status still Running, every pass counted. -/
def Obligations.SelfJumpRunsToTheCeiling : Prop :=
  ∀ (n : Nat) (s : State), s.Executes (.jmp s.pc) → s.traceEn = false →
    runFor n s = .returned (s.count + n) { s with count := s.count + n }

/-! ### Literals and the text adaptors -/

/-- 30_encoding.md R110, with the white space of decision D25 and both letter cases of R112: the parser
accepts exactly the numeric literals of the grammar, with their values. -/
def Obligations.LiteralGrammarIsExactlyParsed : Prop :=
  ∀ (t : Text) (n : Int), parseLiteral t = some n ↔ IsLiteral t n

/-- 43_io.md R143: a port fed by the lines of an input source answers as the input adaptor does, and
consumes a line when it does; a line is Malformed when it is no literal, OutOfRange when its value is
outside -32768 to 65535, and the masked value otherwise. -/
def Obligations.InPortAnswersAsTheAdaptor : Prop :=
  (∀ (s : State) (lines : List Text), s.input = portResponses lines →
    s.inPort = some ((inAdaptor lines).1, { s with input := portResponses (inAdaptor lines).2 })) ∧
  (∀ lines : List Text, ((inAdaptor lines).1 = .endOfInput ↔ lines = [])) ∧
  ∀ (t : Text) (rest : List Text),
    ((¬ ∃ n, IsLiteral t n) → inAdaptor (t :: rest) = (.malformed, rest)) ∧
    ∀ n, IsLiteral t n → inAdaptor (t :: rest) =
      (if -32768 ≤ n ∧ n ≤ 65535 then .value (BitVec.ofInt 16 n) else .outOfRange, rest)

/-- 43_io.md R147: every line OUT prints is a sign, five decimal digits of the magnitude of the
two's-complement reading, ` (0x`, four lower-case hexadecimal digits of the unsigned value, and `)`. -/
def Obligations.OutLineHasTheExactForm : Prop :=
  ∀ v : Word, ∃ (mag hex : Text),
    outLine v = (if v.toNat < 32768 then '+' else '-') :: mag ++ [' ', '(', '0', 'x'] ++ hex ++ [')'] ∧
    mag.length = 5 ∧ hex.length = 4 ∧ (outLine v).length = 15 ∧
    DigitsValue 10 decDigitTable mag (if v.toNat < 32768 then v.toNat else 65536 - v.toNat) ∧
    DigitsValue 16 hexDigitTable hex v.toNat ∧
    ∀ c ∈ hex, c ∈ ['0', '1', '2', '3', '4', '5', '6', '7', '8', '9', 'a', 'b', 'c', 'd', 'e', 'f']

/-- What OUT prints before the parenthesis, fed to IN as a line, gives the Word back: the two adaptors
agree on the signed reading (43_io.md R143, R147; 30_encoding.md R99). -/
def Obligations.PrintedNumberReadsBack : Prop :=
  ∀ v : Word, lineResponse ((outLine v).take 6) = .value v

/-! ### The assembler -/

/-- An assembled Program has at most 65535 instructions (30_encoding.md R113), one for each statement
line, in order, each the instruction of its line, and every word of it decodes to that instruction
(R83, R90, 44_system.md R161). -/
def Obligations.AssembledProgramFollowsTheStatements : Prop :=
  ∀ (src : Text) (a : Asm.Assembled), Asm.assemble src = .ok a →
    a.program.length ≤ 65535 ∧
    ((Asm.cleanedLines src).filter fun l => !Asm.isLabelLine l.text).map
        (fun l => Asm.assembleStatement a.labels l.text)
      = a.program.map Asm.Statement.instr ∧
    a.words.map decode = a.program.map Decoded.legal

/-- 30_encoding.md R93 and R94 (a label line is known by decision D20): in a text that pass 1 accepts, every label is bound to the number of
statement lines before its declaration, names are not empty and hold no white space, and no name is
declared twice. -/
def Obligations.LabelsAreBoundToTheNextInstruction : Prop :=
  ∀ (lines : List Asm.SrcLine) (table : Asm.LabelTable), Asm.pass1 [] 0 lines = .ok table →
    (∀ earlier l later, lines = earlier ++ l :: later → Asm.isLabelLine l.text = true →
      Asm.lookupLabel table (Asm.labelName l.text)
        = some (earlier.filter fun k => !Asm.isLabelLine k.text).length) ∧
    (∀ e ∈ table, e.1 ≠ [] ∧ ∀ c ∈ e.1, c ∉ whiteSpace) ∧
    (table.map Prod.fst).Nodup

/-- 30_encoding.md R104 and R105: LI assembles exactly as the ADDI with r0 as its source, MOV exactly
as the ADD with r0 as its second source, defects included. -/
def Obligations.PseudoInstructionsExpand : Prop :=
  ∀ (table : Asm.LabelTable) (t t' m m' x y : Text),
    (Asm.tokens t = [m, x, y] → Asm.mnemonicOf m = some .li →
      Asm.tokens t' = [m', x, ['r', '0'], y] → Asm.mnemonicOf m' = some (.op .addi) →
      Asm.assembleStatement table t = Asm.assembleStatement table t') ∧
    (Asm.tokens t = [m, x, y] → Asm.mnemonicOf m = some .mov →
      Asm.tokens t' = [m', x, y, ['r', '0']] → Asm.mnemonicOf m' = some (.op .add) →
      Asm.assembleStatement table t = Asm.assembleStatement table t')

/-- 30_encoding.md R118, the spec's decision D15: the printed form of every well-formed instruction, alone in a source text,
assembles back to the same instruction. -/
def Obligations.PrintedFormAssemblesBack : Prop :=
  ∀ i : Instr, i.wf = true → Asm.assemble (Asm.printInstr i) = .ok ⟨[i], []⟩

/-- 30_encoding.md R99, R103 and R114: an immediate is a numeric literal from -32768 to 65535, masked; a
target is the index of the label of that exact name where one is declared, and otherwise an immediate.
The masking of a negative target is the spec's decision D6. -/
def Obligations.ImmediatesAndTargetsAreRead : Prop :=
  (∀ (t : Text) (w : Word), Asm.parseImm t = some w ↔
    ∃ n : Int, IsLiteral t n ∧ -32768 ≤ n ∧ n ≤ 65535 ∧ w = BitVec.ofInt 16 n) ∧
  ∀ (table : Asm.LabelTable) (t : Text),
    ((∀ n, (t, n) ∉ table) → Asm.parseTarget table t = Asm.parseImm t) ∧
    ∀ (pre post : Asm.LabelTable) (n : Nat), table = pre ++ (t, n) :: post →
      (∀ m, (t, m) ∉ pre) → Asm.parseTarget table t = some (BitVec.ofNat 16 n)

/-- 30_encoding.md R90, R109 and R115: a failed assembly names a line of the text at which a label
declaration is wrong, every line before it having passed pass 1, or, where pass 1 accepts the whole
text, a statement that does not assemble or is the 65536th (log 20), every line before it having
passed pass 2. -/
def Obligations.AssemblyErrorIsTheFirst : Prop :=
  ∀ (src : Text) (e : Asm.AssemblyError), Asm.assemble src = .error e →
    e.defects ≠ [] ∧
    ∃ earlier l later, Asm.cleanedLines src = earlier ++ l :: later ∧ e.line = l.number ∧
      ((Asm.isLabelLine l.text = true ∧ ∃ table, Asm.pass1 [] 0 earlier = .ok table ∧
          e.defects = Asm.labelDefects table (Asm.labelName l.text)) ∨
        (Asm.isLabelLine l.text = false ∧ ∃ table program,
          Asm.pass1 [] 0 (Asm.cleanedLines src) = .ok table ∧
          Asm.pass2 table 0 earlier = .ok program ∧
          (program.length = 65535 ∨ ∀ i, Asm.assembleStatement table l.text ≠ .instr i)))

/-- 60_exceptions.md R186: with all its input lines given, the process never waits and ends in one of
the four conditions: no file, no assembly, a run that reaches a RuntimeFault, or a run that reaches
Halted, OutOfProgram or the ceiling. -/
def Obligations.ProcessEndsByItsConditions : Prop :=
  ∀ (traceEn : Bool) (lines : List Text) (n : Nat),
    process none traceEn lines n = some .fileReadFailure ∧
    ∀ src : Text,
      (∀ e, Asm.assemble src = .error e →
        process (some src) traceEn lines n = some .assemblyFailure) ∧
      ∀ a, Asm.assemble src = .ok a →
        ∃ s, boot a.words (portResponses lines) traceEn = some s ∧
          ((process (some src) traceEn lines n = some .runtimeFailure ∧
              ∃ m t c, m ≤ n ∧ Sys2Proof.core.run m s = .next t ∧ t.status = .runtimeFault c) ∨
            (process (some src) traceEn lines n = some .success ∧
              ∃ m t, m ≤ n ∧ Sys2Proof.core.run m s = .next t ∧
                (t.status = .halted ∨ t.status = .outOfProgram ∨ (t.status = .running ∧ m = n))))
end

