-- ==== Sys2Proof/Laws/Encoding.lean ====
section
/-! SUPPORT. The fields of an instruction word as arithmetic, and the words the encoder builds
(30_encoding.md R73, R83). -/

namespace Sys2Proof

/-- A mask of `n` ones from bit `lo` is clear of `w` exactly when that bit field of `w` is zero. -/
theorem and_range_eq_zero (w : InstrWord) (lo n : Nat) (hn : lo + n ≤ 32) :
    w &&& ((BitVec.allOnes n).setWidth 32 <<< lo) = 0 ↔ w.extractLsb' lo n = 0 := by
  constructor
  · intro h
    apply BitVec.eq_of_getLsbD_eq
    intro i hi
    have hbit := congrArg (fun x : InstrWord => x.getLsbD (lo + i)) h
    have hlt : lo + i < 32 := by omega
    simpa [hi, hlt] using hbit
  · intro h
    apply BitVec.eq_of_getLsbD_eq
    intro i hi
    by_cases hl : lo ≤ i ∧ i - lo < n
    · have hbit := congrArg (fun x => x.getLsbD (i - lo)) h
      simp [hl.2, show lo + (i - lo) = i by omega] at hbit
      simp [hbit]
    · simp
      intro h1 h2 h3
      omega

/-- The same, with the bit field as arithmetic on the word's value. -/
theorem and_range_eq_zero_nat (w : InstrWord) (lo n : Nat) (hn : lo + n ≤ 32) :
    w &&& ((BitVec.allOnes n).setWidth 32 <<< lo) = 0 ↔ w.toNat / 2 ^ lo % 2 ^ n = 0 := by
  rw [and_range_eq_zero w lo n hn, ← BitVec.toNat_inj]
  simp [Nat.shiftRight_eq_div_pow]

theorem mustBeZero_r (w : InstrWord) :
    w &&& Format.r.mustBeZero = 0 ↔ w.toNat / 2 ^ 5 % 2 ^ 13 = 0 :=
  and_range_eq_zero_nat w 5 13 (by decide)

theorem mustBeZero_i (w : InstrWord) :
    w &&& Format.i.mustBeZero = 0 ↔ w.toNat / 2 ^ 16 % 2 ^ 2 = 0 :=
  and_range_eq_zero_nat w 16 2 (by decide)

theorem mustBeZero_m (w : InstrWord) :
    w &&& Format.m.mustBeZero = 0 ↔ w.toNat / 2 ^ 16 % 2 ^ 7 = 0 :=
  and_range_eq_zero_nat w 16 7 (by decide)

theorem mustBeZero_b (w : InstrWord) :
    w &&& Format.b.mustBeZero = 0 ↔ w.toNat / 2 ^ 16 % 2 ^ 2 = 0 :=
  and_range_eq_zero_nat w 16 2 (by decide)

theorem mustBeZero_j (w : InstrWord) :
    w &&& Format.j.mustBeZero = 0 ↔ w.toNat / 2 ^ 16 % 2 ^ 12 = 0 :=
  and_range_eq_zero_nat w 16 12 (by decide)

theorem mustBeZero_p (w : InstrWord) :
    w &&& Format.p.mustBeZero = 0 ↔ w.toNat / 2 ^ 0 % 2 ^ 23 = 0 :=
  and_range_eq_zero_nat w 0 23 (by decide)

theorem mustBeZero_z (w : InstrWord) :
    w &&& Format.z.mustBeZero = 0 ↔ w.toNat / 2 ^ 0 % 2 ^ 28 = 0 :=
  and_range_eq_zero_nat w 0 28 (by decide)

theorem opField_toNat (w : InstrWord) : (opField w).toNat = w.toNat / 2 ^ 28 % 2 ^ 4 := by
  simp [opField, Nat.shiftRight_eq_div_pow]

theorem aField_toNat (w : InstrWord) : (aField w).toNat = w.toNat / 2 ^ 23 % 2 ^ 5 := by
  simp [aField, Nat.shiftRight_eq_div_pow]

theorem bField_toNat (w : InstrWord) : (bField w).toNat = w.toNat / 2 ^ 18 % 2 ^ 5 := by
  simp [bField, Nat.shiftRight_eq_div_pow]

theorem kField_toNat (w : InstrWord) : (kField w).toNat = w.toNat % 2 ^ 16 := by
  simp [kField]

theorem cField_toNat (w : InstrWord) : (cField w).toNat = w.toNat % 2 ^ 5 := by
  simp [cField]

/-- The word with these fields, the two bits of field `z` zero. -/
def joinWord (o : Opcode) (a b : RegIdx) (k : BitVec 16) : InstrWord :=
  opBits o ||| aBits a ||| bBits b ||| kBits k

theorem joinWord_toNat (o : Opcode) (a b : RegIdx) (k : BitVec 16) :
    (joinWord o a b k).toNat =
      2 ^ 28 * o.number.toNat + 2 ^ 23 * a.val + 2 ^ 18 * b.val + k.toNat := by
  have ho := o.number.isLt
  have hk := k.isLt
  have ha := a.isLt
  have hb := b.isLt
  generalize hn : o.number.toNat = n at ho
  have h1 : n <<< 28 % 2 ^ 32 = 2 ^ 28 * n := by rw [Nat.shiftLeft_eq]; omega
  have h2 : a.val <<< 23 % 2 ^ 32 = 2 ^ 23 * a.val := by rw [Nat.shiftLeft_eq]; omega
  have h3 : b.val <<< 18 % 2 ^ 32 = 2 ^ 18 * b.val := by rw [Nat.shiftLeft_eq]; omega
  have e1 := Nat.two_pow_add_eq_or_of_lt (i := 28) (b := 2 ^ 23 * a.val) (by omega) n
  have e2 := Nat.two_pow_add_eq_or_of_lt (i := 23) (b := 2 ^ 18 * b.val) (by omega)
    (2 ^ 5 * n + a.val)
  have e3 := Nat.two_pow_add_eq_or_of_lt (i := 18) (b := k.toNat) (by omega)
    (2 ^ 10 * n + 2 ^ 5 * a.val + b.val)
  simp only [joinWord, opBits, aBits, bBits, kBits, BitVec.toNat_or, BitVec.toNat_shiftLeft,
    BitVec.toNat_ofNat, BitVec.toNat_setWidth, hn]
  rw [Nat.mod_eq_of_lt (a := n) (by omega), Nat.mod_eq_of_lt (a := a.val) (by omega),
    Nat.mod_eq_of_lt (a := b.val) (by omega), Nat.mod_eq_of_lt (a := k.toNat) (by omega),
    h1, h2, h3, ← e1,
    show 2 ^ 28 * n + 2 ^ 23 * a.val = 2 ^ 23 * (2 ^ 5 * n + a.val) by omega, ← e2,
    show 2 ^ 23 * (2 ^ 5 * n + a.val) + 2 ^ 18 * b.val
      = 2 ^ 18 * (2 ^ 10 * n + 2 ^ 5 * a.val + b.val) by omega, ← e3]

theorem packFields_toNat (op : BitVec 4) (a b : BitVec 5) (z : BitVec 2) (k : BitVec 16) :
    (packFields op a b z k).toNat =
      2 ^ 28 * op.toNat + 2 ^ 23 * a.toNat + 2 ^ 18 * b.toNat + 2 ^ 16 * z.toNat + k.toNat := by
  have ho := op.isLt
  have ha := a.isLt
  have hb := b.isLt
  have hz := z.isLt
  have hk := k.isLt
  have e1 := Nat.two_pow_add_eq_or_of_lt (i := 5) (b := a.toNat) ha op.toNat
  have e2 := Nat.two_pow_add_eq_or_of_lt (i := 5) (b := b.toNat) hb (2 ^ 5 * op.toNat + a.toNat)
  have e3 := Nat.two_pow_add_eq_or_of_lt (i := 2) (b := z.toNat) hz
    (2 ^ 5 * (2 ^ 5 * op.toNat + a.toNat) + b.toNat)
  have e4 := Nat.two_pow_add_eq_or_of_lt (i := 16) (b := k.toNat) hk
    (2 ^ 2 * (2 ^ 5 * (2 ^ 5 * op.toNat + a.toNat) + b.toNat) + z.toNat)
  simp only [packFields, BitVec.toNat_append, Nat.shiftLeft_eq]
  rw [Nat.mul_comm op.toNat, ← e1, Nat.mul_comm (2 ^ 5 * op.toNat + a.toNat), ← e2,
    Nat.mul_comm (2 ^ 5 * (2 ^ 5 * op.toNat + a.toNat) + b.toNat), ← e3, Nat.mul_comm _ (2 ^ 16),
    ← e4]
  omega

/-- The picture of a word whose field `z` is zero is the join of its fields. -/
theorem packFields_eq_joinWord (o : Opcode) (a b : RegIdx) (k : BitVec 16) :
    packFields o.number (regField a) (regField b) 0 k = joinWord o a b k := by
  apply BitVec.eq_of_toNat_eq
  rw [packFields_toNat, joinWord_toNat]
  simp [regField]

/-- A word whose field `z` is zero is the join of its fields. -/
theorem eq_joinWord (w : InstrWord) (o : Opcode) (ho : opField w = o.number)
    (hz : w.toNat / 2 ^ 16 % 2 ^ 2 = 0) :
    w = joinWord o (regOfField (aField w)) (regOfField (bField w)) (kField w) := by
  apply BitVec.eq_of_toNat_eq
  have hw := w.isLt
  have ho' := congrArg BitVec.toNat ho
  rw [opField_toNat] at ho'
  simp only [joinWord_toNat, regOfField, aField_toNat, bField_toNat, kField_toNat, ← ho']
  omega

theorem opField_joinWord (o : Opcode) (a b : RegIdx) (k : BitVec 16) :
    opField (joinWord o a b k) = o.number := by
  apply BitVec.eq_of_toNat_eq
  have ho := o.number.isLt
  have hk := k.isLt
  rw [opField_toNat, joinWord_toNat]
  omega

theorem regOfField_aField_joinWord (o : Opcode) (a b : RegIdx) (k : BitVec 16) :
    regOfField (aField (joinWord o a b k)) = a := by
  apply Fin.ext
  have hk := k.isLt
  simp only [regOfField, aField_toNat, joinWord_toNat]
  omega

theorem regOfField_bField_joinWord (o : Opcode) (a b : RegIdx) (k : BitVec 16) :
    regOfField (bField (joinWord o a b k)) = b := by
  apply Fin.ext
  have hk := k.isLt
  simp only [regOfField, bField_toNat, joinWord_toNat]
  omega

theorem kField_joinWord (o : Opcode) (a b : RegIdx) (k : BitVec 16) :
    kField (joinWord o a b k) = k := by
  apply BitVec.eq_of_toNat_eq
  have hk := k.isLt
  rw [kField_toNat, joinWord_toNat]
  omega

theorem regOfField_cField_joinWord (o : Opcode) (a b c : RegIdx) :
    regOfField (cField (joinWord o a b (BitVec.ofNat 16 c.val))) = c := by
  apply Fin.ext
  have hc : (BitVec.ofNat 16 c.val).toNat = c.val := by
    rw [BitVec.toNat_ofNat]; omega
  simp only [regOfField, cField_toNat, joinWord_toNat, hc]
  omega

/-- Each opcode number stands for its opcode. -/
theorem opcodeOfNumber_number (o : Opcode) : opcodeOfNumber o.number = some o := by
  cases o <;> rfl

/-- No two opcodes have one number, and only their numbers are assigned. -/
theorem number_of_opcodeOfNumber {op : BitVec 4} {o : Opcode} (h : opcodeOfNumber op = some o) :
    op = o.number := by
  revert h
  cases o <;> revert op <;> decide

/-- What the decoder answers for a word of an assigned opcode whose must-be-zero bits are zero. -/
theorem decode_of_opcode {w : InstrWord} {o : Opcode} (ho : opField w = o.number)
    (hz : w &&& o.format.mustBeZero = 0) : decode w = .legal (instrOfFields o w) := by
  simp only [decode, ho, opcodeOfNumber_number]
  exact if_pos hz

/-- The decoder answers an instruction only for a word of its opcode whose must-be-zero bits are
zero, and then the one its fields give. -/
theorem decode_eq_legal {w : InstrWord} {i : Instr} (h : decode w = .legal i) :
    ∃ o : Opcode, opField w = o.number ∧ w &&& o.format.mustBeZero = 0 ∧ i = instrOfFields o w := by
  unfold decode at h
  split at h
  · cases h
  · rename_i o ho
    split at h
    · rename_i hz
      exact ⟨o, number_of_opcodeOfNumber ho, hz, by injection h with h; exact h.symm⟩
    · cases h

theorem opcode_instrOfFields (o : Opcode) (w : InstrWord) : (instrOfFields o w).opcode = o := by
  cases o <;> rfl

/-- The bits of the mask of field `op`. -/
theorem opMask_getLsbD {i : Nat} (hi : i < 32) : (0xF0000000#32).getLsbD i = decide (28 ≤ i) := by
  have h : ∀ j : Fin 32, (0xF0000000#32).getLsbD j.val = decide (28 ≤ j.val) := by decide
  exact h ⟨i, hi⟩

/-- A word under the mask of `op` and of further low bits `B` is `n << 28` exactly when its field `op`
is `n` and the bits `B` are clear. -/
theorem and_opMask_or (w B : InstrWord) (n : BitVec 4) (hB : B &&& 0xF0000000#32 = 0) :
    w &&& (0xF0000000#32 ||| B) = n.setWidth 32 <<< 28 ↔
      w.extractLsb' 28 4 = n ∧ w &&& B = 0 := by
  have hBbit : ∀ i, 28 ≤ i → i < 32 → B.getLsbD i = false := by
    intro i h1 h2
    have := congrArg (fun x : InstrWord => x.getLsbD i) hB
    simpa [opMask_getLsbD h2, h1] using this
  constructor
  · intro h
    have hbit : ∀ i, i < 32 → (w.getLsbD i && (decide (28 ≤ i) || B.getLsbD i))
        = (decide (28 ≤ i) && n.getLsbD (i - 28)) := by
      intro i hi
      have := congrArg (fun x : InstrWord => x.getLsbD i) h
      rw [BitVec.getLsbD_and, BitVec.getLsbD_or, opMask_getLsbD hi] at this
      rw [this]
      by_cases h : 28 ≤ i
      · simp [h, hi, show ¬ i < 28 by omega]
      · simp [h, show i < 28 by omega]
    constructor
    · apply BitVec.eq_of_getLsbD_eq
      intro i hi
      have := hbit (28 + i) (by omega)
      simpa [hi] using this
    · apply BitVec.eq_of_getLsbD_eq
      intro i hi
      have := hbit i hi
      by_cases h : 28 ≤ i
      · simp [hBbit i h hi]
      · simp only [h, decide_false, Bool.false_or, Bool.false_and] at this
        simpa using this
  · rintro ⟨rfl, hz⟩
    rw [BitVec.and_or_distrib_left, hz]
    apply BitVec.eq_of_getLsbD_eq
    intro i hi
    by_cases h : 28 ≤ i
    · simp [opMask_getLsbD hi, h, hi, show i - 28 < 4 by omega, show 28 + (i - 28) = i by omega,
        show ¬ i < 28 by omega]
    · simp [opMask_getLsbD hi, h, show i < 28 by omega]

/-- What the `match` and `mask` columns of the opcode map say of a word. -/
theorem and_maskWord_eq_matchWord_iff (w : InstrWord) (o : Opcode) :
   w &&& o.maskWord = o.matchWord ↔ opField w = o.number ∧ w &&& o.format.mustBeZero = 0 :=
  and_opMask_or w _ _ (by cases o <;> decide)

/-- Two opcodes with one number are one. -/
theorem number_injective {o o' : Opcode} (h : o.number = o'.number) : o = o' :=
  Option.some_inj.1 ((opcodeOfNumber_number o).symm.trans (h ▸ opcodeOfNumber_number o'))

/-- A Word read as an integer and masked is the Word. -/
theorem mask16_natCast (k : BitVec 16) : mask16 (k.toNat : Int) = k := by
  apply BitVec.eq_of_toNat_eq
  have := k.isLt
  simp only [mask16, BitVec.toNat_ofInt]
  omega

/-- A decoded instruction is well-formed. -/
theorem wf_of_decode {w : InstrWord} {i : Instr} (h : decode w = .legal i) : i.wf = true := by
  obtain ⟨o, -, -, rfl⟩ := decode_eq_legal h
  have hk := (kField w).isLt
  cases o <;> simp [instrOfFields, Instr.wf, addrInRange] <;> omega

theorem cBits_eq_kBits (r : RegIdx) : cBits r = kBits (BitVec.ofNat 16 r.val) := by
  apply BitVec.eq_of_toNat_eq
  simp only [cBits, kBits, BitVec.toNat_setWidth, BitVec.toNat_ofNat]
  omega

@[simp] theorem aBits_zero : aBits 0 = 0#32 := rfl

@[simp] theorem bBits_zero : bBits 0 = 0#32 := rfl

@[simp] theorem kBits_zero : kBits 0#16 = 0#32 := rfl

/-- The join of format M. -/
theorem joinWord_ak (o : Opcode) (a : RegIdx) (k : BitVec 16) :
    joinWord o a 0 k = opBits o ||| aBits a ||| kBits k := by
  simp [joinWord]

/-- The join of format P. -/
theorem joinWord_a (o : Opcode) (a : RegIdx) : joinWord o a 0 0 = opBits o ||| aBits a := by
  simp [joinWord]

/-- The join of format J. -/
theorem joinWord_k (o : Opcode) (k : BitVec 16) : joinWord o 0 0 k = opBits o ||| kBits k := by
  simp [joinWord]

/-- The address of a well-formed LD or ST is the value of its field. -/
theorem mask16_toNat_of_addrInRange {addr : Int} (h : addrInRange addr = true) :
    ((mask16 addr).toNat : Int) = addr := by
  simp only [addrInRange, Bool.and_eq_true, decide_eq_true_eq] at h
  simp only [mask16, BitVec.toNat_ofInt]
  omega

end Sys2Proof
end

