-- ==== Sys2Proof/Laws/Text.lean ====
section
/-! SUPPORT. White space, digits and trimming: the functions of Literal.lean against the tables of the
grammar (30_encoding.md R110). -/

namespace Sys2Proof

theorem isSpace_iff (c : Char) : isSpace c = true ↔ c ∈ whiteSpace := by
  simp [isSpace, whiteSpace, or_assoc]

/-- A character is the one with its code. -/
theorem eq_ofNat_toNat (c : Char) : c = Char.ofNat c.toNat := (Char.ofNat_toNat c).symm

theorem decDigit?_of_mem : ∀ p ∈ decDigitTable, decDigit? p.1 = some p.2 := by decide

theorem hexDigit?_of_mem : ∀ p ∈ hexDigitTable, hexDigit? p.1 = some p.2 := by decide

theorem mem_dec_of_code : ∀ k : Fin 10, (Char.ofNat (48 + k.val), k.val) ∈ decDigitTable := by decide

theorem mem_hex_of_code :
    (∀ k : Fin 10, (Char.ofNat (48 + k.val), k.val) ∈ hexDigitTable) ∧
    (∀ k : Fin 6, (Char.ofNat (97 + k.val), k.val + 10) ∈ hexDigitTable) ∧
    ∀ k : Fin 6, (Char.ofNat (65 + k.val), k.val + 10) ∈ hexDigitTable := by decide

/-- The decimal digits are the table's. -/
theorem decDigit?_eq_some {c : Char} {d : Nat} : decDigit? c = some d ↔ (c, d) ∈ decDigitTable := by
  constructor
  · intro h
    unfold decDigit? at h
    split at h
    · rename_i hc
      obtain ⟨h1, h2⟩ := hc
      change 48 ≤ c.toNat at h1
      change c.toNat ≤ 57 at h2
      obtain rfl : c.toNat - 48 = d := Option.some_inj.1 h
      have hm := mem_dec_of_code ⟨c.toNat - 48, by omega⟩
      rw [show 48 + (c.toNat - 48) = c.toNat by omega, ← eq_ofNat_toNat] at hm
      exact hm
    · cases h
  · exact decDigit?_of_mem (c, d)

/-- The hexadecimal digits are the table's. -/
theorem hexDigit?_eq_some {c : Char} {d : Nat} : hexDigit? c = some d ↔ (c, d) ∈ hexDigitTable := by
  constructor
  · intro h
    unfold hexDigit? at h
    split at h
    · rename_i hc
      obtain ⟨h1, h2⟩ := hc
      change 48 ≤ c.toNat at h1
      change c.toNat ≤ 57 at h2
      obtain rfl : c.toNat - 48 = d := Option.some_inj.1 h
      have hm := mem_hex_of_code.1 ⟨c.toNat - 48, by omega⟩
      rw [show 48 + (c.toNat - 48) = c.toNat by omega, ← eq_ofNat_toNat] at hm
      exact hm
    · split at h
      · rename_i hc
        obtain ⟨h1, h2⟩ := hc
        change 97 ≤ c.toNat at h1
        change c.toNat ≤ 102 at h2
        obtain rfl : c.toNat - 97 + 10 = d := Option.some_inj.1 h
        have hm := mem_hex_of_code.2.1 ⟨c.toNat - 97, by omega⟩
        rw [show 97 + (c.toNat - 97) = c.toNat by omega, ← eq_ofNat_toNat] at hm
        exact hm
      · split at h
        · rename_i hc
          obtain ⟨h1, h2⟩ := hc
          change 65 ≤ c.toNat at h1
          change c.toNat ≤ 70 at h2
          obtain rfl : c.toNat - 65 + 10 = d := Option.some_inj.1 h
          have hm := mem_hex_of_code.2.2 ⟨c.toNat - 65, by omega⟩
          rw [show 65 + (c.toNat - 65) = c.toNat by omega, ← eq_ofNat_toNat] at hm
          exact hm
        · cases h
  · exact hexDigit?_of_mem (c, d)

/-- Reading one more digit. -/
theorem digitsFrom_snoc (base : Nat) (digit? : Char → Option Nat) (c : Char) :
    ∀ (t : Text) (acc : Nat), digitsFrom base digit? acc (t ++ [c]) =
      (digitsFrom base digit? acc t).bind fun n => (digit? c).map fun d => n * base + d
  | [], acc => by
    simp only [List.nil_append, digitsFrom, Option.bind_some]
    cases digit? c <;> rfl
  | x :: xs, acc => by
    simp only [List.cons_append, digitsFrom]
    cases digit? x with
    | none => rfl
    | some d => exact digitsFrom_snoc base digit? c xs _

/-- `digits` reads exactly the digit strings of the grammar, with their values. -/
theorem digits_eq_some {base : Nat} {digit? : Char → Option Nat} {table : List (Char × Nat)}
    (hd : ∀ c d, digit? c = some d ↔ (c, d) ∈ table) {t : Text} {n : Nat} :
    digits base digit? t = some n ↔ DigitsValue base table t n := by
  constructor
  · intro h
    unfold digits at h
    split at h
    · cases h
    · rename_i hne
      induction t using List.reverseRecOn generalizing n with
      | nil => exact absurd rfl hne
      | append_singleton ds c ih =>
        rw [digitsFrom_snoc] at h
        obtain ⟨m, hm, h⟩ := Option.bind_eq_some_iff.1 h
        obtain ⟨d, hcd, rfl⟩ := Option.map_eq_some_iff.1 h
        by_cases hds : ds = []
        · subst hds
          obtain rfl : 0 = m := Option.some_inj.1 hm
          rw [Nat.zero_mul, Nat.zero_add]
          exact .one ((hd c d).1 hcd)
        · exact .snoc (ih hds hm) ((hd c d).1 hcd)
  · intro h
    have hne : t ≠ [] := by cases h <;> simp
    simp only [digits, if_neg hne]
    clear hne
    induction h with
    | one h => simp [digitsFrom, (hd _ _).2 h]
    | snoc hs h ih => simp [digitsFrom_snoc, ih, (hd _ _).2 h]

theorem digits_dec {t : Text} {n : Nat} :
    digits 10 decDigit? t = some n ↔ DigitsValue 10 decDigitTable t n :=
  digits_eq_some fun _ _ => decDigit?_eq_some

theorem digits_hex {t : Text} {n : Nat} :
    digits 16 hexDigit? t = some n ↔ DigitsValue 16 hexDigitTable t n :=
  digits_eq_some fun _ _ => hexDigit?_eq_some

/-- Every character of a digit string stands in the table. -/
theorem DigitsValue.mem {base : Nat} {table : List (Char × Nat)} {t : Text} {n : Nat}
    (h : DigitsValue base table t n) : ∀ c ∈ t, ∃ d, (c, d) ∈ table := by
  induction h with
  | one h =>
    intro c hc
    rw [List.mem_singleton.1 hc]
    exact ⟨_, h⟩
  | snoc hs h ih =>
    intro c hc
    rcases List.mem_append.1 hc with hc | hc
    · exact ih c hc
    · rw [List.mem_singleton.1 hc]
      exact ⟨_, h⟩

/-- A digit string is not empty. -/
theorem DigitsValue.ne_nil {base : Nat} {table : List (Char × Nat)} {t : Text} {n : Nat}
    (h : DigitsValue base table t n) : t ≠ [] := by
  cases h <;> simp

/-- No digit is white space. -/
theorem digit_not_space : ∀ p ∈ hexDigitTable, isSpace p.1 = false := by decide

/-- The decimal digits are among the hexadecimal ones. -/
theorem mem_hex_of_mem_dec {p : Char × Nat} (h : p ∈ decDigitTable) : p ∈ hexDigitTable :=
  List.mem_append.2 (.inl (List.mem_append.2 (.inl h)))

/-- Trimming cuts white space off both ends and nothing else. -/
theorem trim_decomp (t : Text) : ∃ before after,
    t = before ++ trim t ++ after ∧ (∀ c ∈ before, isSpace c = true) ∧
      ∀ c ∈ after, isSpace c = true := by
  refine ⟨t.takeWhile isSpace, ((trimLeft t).reverse.takeWhile isSpace).reverse, ?_, ?_, ?_⟩
  · have h1 := List.takeWhile_append_dropWhile (p := isSpace) (l := t)
    have h2 := List.takeWhile_append_dropWhile (p := isSpace) (l := (trimLeft t).reverse)
    have h3 := congrArg List.reverse h2
    rw [List.reverse_append, List.reverse_reverse] at h3
    rw [List.append_assoc, show trim t = (List.dropWhile isSpace (trimLeft t).reverse).reverse from rfl,
      h3, show trimLeft t = List.dropWhile isSpace t from rfl, h1]
  · intro c hc
    exact List.mem_takeWhile_imp hc
  · intro c hc
    exact List.mem_takeWhile_imp (List.mem_reverse.1 hc)

/-- Leading white space goes, up to the first character that is none. -/
theorem trimLeft_append {before : Text} (hb : ∀ c ∈ before, isSpace c = true) (c : Char) (t : Text)
    (hc : isSpace c = false) : trimLeft (before ++ c :: t) = c :: t := by
  unfold trimLeft
  rw [List.dropWhile_append_of_pos hb, List.dropWhile_cons_of_neg (by simp [hc])]

/-- A text whose first and last characters are no white space is what trimming leaves of it. -/
theorem trim_append {before after core : Text} (hb : ∀ c ∈ before, isSpace c = true)
    (ha : ∀ c ∈ after, isSpace c = true) (hne : core ≠ [])
    (hfirst : ∀ c, core.head? = some c → isSpace c = false)
    (hlast : ∀ c, core.getLast? = some c → isSpace c = false) :
    trim (before ++ core ++ after) = core := by
  obtain ⟨c, cs, rfl⟩ := List.exists_cons_of_ne_nil hne
  have h1 : trimLeft (before ++ (c :: cs) ++ after) = (c :: cs) ++ after := by
    rw [List.append_assoc, List.cons_append, trimLeft_append hb c _ (hfirst c rfl)]
  unfold trim
  rw [h1, List.reverse_append]
  obtain ⟨init, last, he⟩ : ∃ init last, c :: cs = init ++ [last] :=
    ⟨_, _, (List.dropLast_append_getLast hne).symm⟩
  rw [he, List.reverse_append, List.reverse_singleton, List.singleton_append,
    trimLeft_append (fun x hx => ha x (List.mem_reverse.1 hx)) last _
      (hlast last (by rw [he]; simp))]
  simp

/-- A text with no white space in it is what trimming leaves of it. -/
theorem trim_of_no_space {t : Text} (h : ∀ c ∈ t, isSpace c = false) : trim t = t := by
  by_cases hne : t = []
  · subst hne; rfl
  · have := trim_append (before := []) (after := []) (core := t) (by simp) (by simp) hne
      (fun c hc => h c (List.mem_of_head? hc)) (fun c hc => h c (List.mem_of_getLast? hc))
    simpa using this

/-- No decimal digit is a prefix letter, a sign or white space. -/
theorem dec_digit_chars : ∀ p ∈ decDigitTable,
    p.1 ≠ 'x' ∧ p.1 ≠ 'X' ∧ p.1 ≠ '+' ∧ p.1 ≠ '-' ∧ isSpace p.1 = false := by decide

/-- `parseMagnitude` reads exactly `[ prefix ] digits`. -/
theorem parseMagnitude_eq_some {t : Text} {m : Nat} : parseMagnitude t = some m ↔
    ∃ pre ds, t = pre ++ ds ∧
      ((pre = [] ∧ DigitsValue 10 decDigitTable ds m) ∨
        ((pre = ['0', 'x'] ∨ pre = ['0', 'X']) ∧ DigitsValue 16 hexDigitTable ds m)) := by
  constructor
  · intro h
    unfold parseMagnitude at h
    split at h
    · exact ⟨['0', 'x'], _, rfl, .inr ⟨.inl rfl, digits_hex.1 h⟩⟩
    · exact ⟨['0', 'X'], _, rfl, .inr ⟨.inr rfl, digits_hex.1 h⟩⟩
    · exact ⟨[], _, rfl, .inl ⟨rfl, digits_dec.1 h⟩⟩
  · rintro ⟨pre, ds, rfl, ⟨rfl, h⟩ | ⟨rfl | rfl, h⟩⟩
    · rw [List.nil_append]
      unfold parseMagnitude
      split
      · obtain ⟨d, hd⟩ := h.mem 'x' (by simp)
        exact absurd rfl (dec_digit_chars _ hd).1
      · obtain ⟨d, hd⟩ := h.mem 'X' (by simp)
        exact absurd rfl (dec_digit_chars _ hd).2.1
      · exact digits_dec.2 h
    · exact digits_hex.2 h
    · exact digits_hex.2 h

/-- A magnitude is not empty, begins with no sign and holds no white space. -/
theorem parseMagnitude_chars {t : Text} {m : Nat} (h : parseMagnitude t = some m) :
    t ≠ [] ∧ t.head? ≠ some '+' ∧ t.head? ≠ some '-' ∧ ∀ c ∈ t, isSpace c = false := by
  obtain ⟨pre, ds, rfl, ⟨rfl, hd⟩ | ⟨hp, hd⟩⟩ := parseMagnitude_eq_some.1 h
  · rw [List.nil_append]
    refine ⟨hd.ne_nil, ?_, ?_, ?_⟩
    · intro e
      obtain ⟨d, hm⟩ := hd.mem _ (List.mem_of_head? e)
      exact absurd rfl (dec_digit_chars _ hm).2.2.1
    · intro e
      obtain ⟨d, hm⟩ := hd.mem _ (List.mem_of_head? e)
      exact absurd rfl (dec_digit_chars _ hm).2.2.2.1
    · intro c hc
      obtain ⟨d, hm⟩ := hd.mem c hc
      exact digit_not_space _ (mem_hex_of_mem_dec hm)
  · have hs : ∀ c ∈ pre ++ ds, isSpace c = false := by
      intro c hc
      rcases List.mem_append.1 hc with hc | hc
      · have : c = '0' ∨ c = 'x' ∨ c = 'X' := by rcases hp with rfl | rfl <;> simp at hc <;> tauto
        rcases this with rfl | rfl | rfl <;> rfl
      · obtain ⟨d, hm⟩ := hd.mem c hc
        exact digit_not_space _ hm
    rcases hp with rfl | rfl <;> exact ⟨by simp, by simp, by simp, hs⟩

/-- `parseToken` reads exactly `[ sign ] [ prefix ] digits`. -/
theorem parseToken_eq_some {t : Text} {n : Int} : parseToken t = some n ↔
    ∃ sign body m, t = sign ++ body ∧ parseMagnitude body = some m ∧
      ((sign = [] ∧ n = m) ∨ (sign = ['+'] ∧ n = m) ∨ (sign = ['-'] ∧ n = -(m : Int))) := by
  constructor
  · intro h
    unfold parseToken at h
    split at h <;> obtain ⟨q, hm, rfl⟩ := Option.map_eq_some_iff.1 h
    · exact ⟨['+'], _, q, rfl, hm, .inr (.inl ⟨rfl, rfl⟩)⟩
    · exact ⟨['-'], _, q, rfl, hm, .inr (.inr ⟨rfl, rfl⟩)⟩
    · exact ⟨[], _, q, rfl, hm, .inl ⟨rfl, rfl⟩⟩
  · rintro ⟨sign, body, m, rfl, hm, ⟨rfl, rfl⟩ | ⟨rfl, rfl⟩ | ⟨rfl, rfl⟩⟩
    · have hc := parseMagnitude_chars hm
      rw [List.nil_append]
      unfold parseToken
      split
      · exact absurd rfl hc.2.1
      · exact absurd rfl hc.2.2.1
      · rw [hm]; rfl
    · simp only [parseToken, List.singleton_append, hm]; rfl
    · simp only [parseToken, List.singleton_append, hm]; rfl

/-- An untrimmed literal is not empty and holds no white space. -/
theorem parseToken_chars {t : Text} {n : Int} (h : parseToken t = some n) :
    t ≠ [] ∧ ∀ c ∈ t, isSpace c = false := by
  obtain ⟨sign, body, m, rfl, hm, hs⟩ := parseToken_eq_some.1 h
  have hc := parseMagnitude_chars hm
  refine ⟨by simp [hc.1], fun c hx => ?_⟩
  rcases List.mem_append.1 hx with hx | hx
  · have : c = '+' ∨ c = '-' := by
      rcases hs with ⟨rfl, -⟩ | ⟨rfl, -⟩ | ⟨rfl, -⟩ <;> simp at hx <;> tauto
    rcases this with rfl | rfl <;> rfl
  · exact hc.2.2.2 c hx

/-- Digits alone are a literal. -/
theorem parseLiteral_of_digits {t : Text} {n : Nat} (h : digits 10 decDigit? t = some n) :
    parseLiteral t = some (n : Int) := by
  have hm : parseMagnitude t = some n := parseMagnitude_eq_some.2 ⟨[], t, rfl, .inl ⟨rfl, digits_dec.1 h⟩⟩
  have ht : parseToken t = some (n : Int) := parseToken_eq_some.2 ⟨[], t, n, rfl, hm, .inl ⟨rfl, rfl⟩⟩
  rw [parseLiteral, trim_of_no_space (parseToken_chars ht).2, ht]

end Sys2Proof
end

