-- ==== Sys2Proof/Laws/Asm.lean ====
section
/-! SUPPORT. Printing numbers and reading them back, splitting a statement into words, and a text of
one line (30_encoding.md R91, R95, R118). -/

namespace Sys2Proof.Asm

/-- Leading zeros do not change a number. -/
theorem digitsFrom_dropWhile_zero (t : Text) :
    digitsFrom 10 decDigit? 0 (t.dropWhile (· == '0')) = digitsFrom 10 decDigit? 0 t := by
  induction t with
  | nil => rfl
  | cons c cs ih =>
    by_cases h : c = '0'
    · subst h
      rw [List.dropWhile_cons_of_pos (by rfl), ih]
      rfl
    · rw [List.dropWhile_cons_of_neg (by simpa using h)]

/-- The five digits of a number read as the number. -/
theorem digitsFrom_dec5 {n : Nat} (hn : n < 100000) :
    digitsFrom 10 decDigit? 0 (Machine.dec5 n) = some n := by
  have hd : ∀ d : Fin 10, decDigit? (Machine.decChar d.val) = some d.val := by decide
  have h := fun k => hd ⟨k % 10, by omega⟩
  simp only [Machine.dec5, digitsFrom, h]
  congr 1
  omega

/-- The printed number reads as the number. -/
theorem digits_decText {n : Nat} (hn : n < 100000) : digits 10 decDigit? (decText n) = some n := by
  have h := (digitsFrom_dropWhile_zero (Machine.dec5 n)).trans (digitsFrom_dec5 hn)
  unfold decText
  split
  · rename_i e
    rw [e] at h
    cases h
    rfl
  · rename_i e
    rw [e] at h
    exact h

/-- A printed Word reads as the Word. -/
theorem parseImm_wordText (w : Word) : parseImm (wordText w) = some w := by
  have hw := w.isLt
  have hr : inImmRange (w.toNat : Int) = true := by
    simp only [inImmRange, Bool.and_eq_true, decide_eq_true_eq]
    omega
  simp only [parseImm, wordText, parseLiteral_of_digits (digits_decText (show w.toNat < 100000 by omega)),
    hr, if_true, mask16_natCast]

/-- A printed register reads as the register. -/
theorem parseReg_regText : ∀ r : RegIdx, parseReg (regText r) = some r := by decide

/-- A word in front continues the word begun. -/
theorem wordsFrom_append : ∀ (w cur rest : Text), (∀ c ∈ w, isSpace c = false) →
    wordsFrom cur (w ++ rest) = wordsFrom (w.reverse ++ cur) rest
  | [], _, _, _ => rfl
  | c :: cs, cur, rest, h => by
    have hc : isSpace c = false := h c (by simp)
    rw [List.cons_append, wordsFrom, if_neg (by simp [hc]),
      wordsFrom_append cs _ _ fun x hx => h x (by simp [hx])]
    simp

/-- A space ends the word begun. -/
theorem wordsFrom_word {w : Text} (hne : w ≠ []) (h : ∀ c ∈ w, isSpace c = false) (rest : Text) :
    wordsFrom [] (w ++ ' ' :: rest) = w :: wordsFrom [] rest := by
  rw [wordsFrom_append w _ _ h, wordsFrom, if_pos (by decide), if_neg (by simpa using hne)]
  simp

/-- The end of the text ends the word begun. -/
theorem wordsFrom_last {w : Text} (hne : w ≠ []) (h : ∀ c ∈ w, isSpace c = false) :
    wordsFrom [] w = [w] := by
  have := wordsFrom_append w [] [] h
  rw [List.append_nil] at this
  rw [this]
  simp [wordsFrom, hne]

/-- A text without a line feed is one line. -/
theorem splitLines_of_no_lineFeed : ∀ t : Text, '\n' ∉ t → splitLines t = [t]
  | [], _ => rfl
  | c :: cs, h => by
    have hc : c ≠ '\n' := fun e => h (by simp [e])
    rw [splitLines, if_neg hc, splitLines_of_no_lineFeed cs fun hx => h (by simp [hx])]

end Sys2Proof.Asm
end

