-- ==== Sys2Proof/Laws/State.lean ====
section
/-! SUPPORT. One lemma per field per update of the state, each true by rfl, so that no proof unfolds a
record update. -/

namespace Sys2Proof.Machine

variable (s : State)
@[simp] theorem State.writeReg_regs (r : RegIdx) (v : Word) : (s.writeReg r v).regs = RegFile.write s.regs r v := rfl
@[simp] theorem State.writeReg_dmem (r : RegIdx) (v : Word) : (s.writeReg r v).dmem = s.dmem := rfl
@[simp] theorem State.writeReg_pc (r : RegIdx) (v : Word) : (s.writeReg r v).pc = s.pc := rfl
@[simp] theorem State.writeReg_status (r : RegIdx) (v : Word) : (s.writeReg r v).status = s.status := rfl
@[simp] theorem State.writeReg_imem (r : RegIdx) (v : Word) : (s.writeReg r v).imem = s.imem := rfl
@[simp] theorem State.writeReg_input (r : RegIdx) (v : Word) : (s.writeReg r v).input = s.input := rfl
@[simp] theorem State.writeReg_output (r : RegIdx) (v : Word) : (s.writeReg r v).output = s.output := rfl
@[simp] theorem State.writeReg_traceEn (r : RegIdx) (v : Word) : (s.writeReg r v).traceEn = s.traceEn := rfl
@[simp] theorem State.writeReg_trace (r : RegIdx) (v : Word) : (s.writeReg r v).trace = s.trace := rfl
@[simp] theorem State.writeReg_count (r : RegIdx) (v : Word) : (s.writeReg r v).count = s.count := rfl
@[simp] theorem State.memWrite_regs (a : Nat) (v : Word) : (s.memWrite a v).regs = s.regs := rfl
@[simp] theorem State.memWrite_dmem (a : Nat) (v : Word) : (s.memWrite a v).dmem = Memory.write s.dmem a v := rfl
@[simp] theorem State.memWrite_pc (a : Nat) (v : Word) : (s.memWrite a v).pc = s.pc := rfl
@[simp] theorem State.memWrite_status (a : Nat) (v : Word) : (s.memWrite a v).status = s.status := rfl
@[simp] theorem State.memWrite_imem (a : Nat) (v : Word) : (s.memWrite a v).imem = s.imem := rfl
@[simp] theorem State.memWrite_input (a : Nat) (v : Word) : (s.memWrite a v).input = s.input := rfl
@[simp] theorem State.memWrite_output (a : Nat) (v : Word) : (s.memWrite a v).output = s.output := rfl
@[simp] theorem State.memWrite_traceEn (a : Nat) (v : Word) : (s.memWrite a v).traceEn = s.traceEn := rfl
@[simp] theorem State.memWrite_trace (a : Nat) (v : Word) : (s.memWrite a v).trace = s.trace := rfl
@[simp] theorem State.memWrite_count (a : Nat) (v : Word) : (s.memWrite a v).count = s.count := rfl
@[simp] theorem State.setPc_regs (t : PC) : (s.setPc t).regs = s.regs := rfl
@[simp] theorem State.setPc_dmem (t : PC) : (s.setPc t).dmem = s.dmem := rfl
@[simp] theorem State.setPc_pc (t : PC) : (s.setPc t).pc = t := rfl
@[simp] theorem State.setPc_status (t : PC) : (s.setPc t).status = s.status := rfl
@[simp] theorem State.setPc_imem (t : PC) : (s.setPc t).imem = s.imem := rfl
@[simp] theorem State.setPc_input (t : PC) : (s.setPc t).input = s.input := rfl
@[simp] theorem State.setPc_output (t : PC) : (s.setPc t).output = s.output := rfl
@[simp] theorem State.setPc_traceEn (t : PC) : (s.setPc t).traceEn = s.traceEn := rfl
@[simp] theorem State.setPc_trace (t : PC) : (s.setPc t).trace = s.trace := rfl
@[simp] theorem State.setPc_count (t : PC) : (s.setPc t).count = s.count := rfl
@[simp] theorem State.advance_regs : s.advance.regs = s.regs := rfl
@[simp] theorem State.advance_dmem : s.advance.dmem = s.dmem := rfl
@[simp] theorem State.advance_pc : s.advance.pc = s.pc + 1 := rfl
@[simp] theorem State.advance_status : s.advance.status = s.status := rfl
@[simp] theorem State.advance_imem : s.advance.imem = s.imem := rfl
@[simp] theorem State.advance_input : s.advance.input = s.input := rfl
@[simp] theorem State.advance_output : s.advance.output = s.output := rfl
@[simp] theorem State.advance_traceEn : s.advance.traceEn = s.traceEn := rfl
@[simp] theorem State.advance_trace : s.advance.trace = s.trace := rfl
@[simp] theorem State.advance_count : s.advance.count = s.count := rfl
@[simp] theorem State.setStatus_regs (st : Status) : (s.setStatus st).regs = s.regs := rfl
@[simp] theorem State.setStatus_dmem (st : Status) : (s.setStatus st).dmem = s.dmem := rfl
@[simp] theorem State.setStatus_pc (st : Status) : (s.setStatus st).pc = s.pc := rfl
@[simp] theorem State.setStatus_status (st : Status) : (s.setStatus st).status = st := rfl
@[simp] theorem State.setStatus_imem (st : Status) : (s.setStatus st).imem = s.imem := rfl
@[simp] theorem State.setStatus_input (st : Status) : (s.setStatus st).input = s.input := rfl
@[simp] theorem State.setStatus_output (st : Status) : (s.setStatus st).output = s.output := rfl
@[simp] theorem State.setStatus_traceEn (st : Status) : (s.setStatus st).traceEn = s.traceEn := rfl
@[simp] theorem State.setStatus_trace (st : Status) : (s.setStatus st).trace = s.trace := rfl
@[simp] theorem State.setStatus_count (st : Status) : (s.setStatus st).count = s.count := rfl
@[simp] theorem State.raise_regs (c : Cause) : (s.raise c).regs = s.regs := rfl
@[simp] theorem State.raise_dmem (c : Cause) : (s.raise c).dmem = s.dmem := rfl
@[simp] theorem State.raise_pc (c : Cause) : (s.raise c).pc = s.pc := rfl
@[simp] theorem State.raise_status (c : Cause) : (s.raise c).status = .runtimeFault c := rfl
@[simp] theorem State.raise_imem (c : Cause) : (s.raise c).imem = s.imem := rfl
@[simp] theorem State.raise_input (c : Cause) : (s.raise c).input = s.input := rfl
@[simp] theorem State.raise_output (c : Cause) : (s.raise c).output = s.output := rfl
@[simp] theorem State.raise_traceEn (c : Cause) : (s.raise c).traceEn = s.traceEn := rfl
@[simp] theorem State.raise_trace (c : Cause) : (s.raise c).trace = s.trace := rfl
@[simp] theorem State.raise_count (c : Cause) : (s.raise c).count = s.count := rfl
@[simp] theorem State.outPort_regs (v : Word) : (s.outPort v).regs = s.regs := rfl
@[simp] theorem State.outPort_dmem (v : Word) : (s.outPort v).dmem = s.dmem := rfl
@[simp] theorem State.outPort_pc (v : Word) : (s.outPort v).pc = s.pc := rfl
@[simp] theorem State.outPort_status (v : Word) : (s.outPort v).status = s.status := rfl
@[simp] theorem State.outPort_imem (v : Word) : (s.outPort v).imem = s.imem := rfl
@[simp] theorem State.outPort_input (v : Word) : (s.outPort v).input = s.input := rfl
@[simp] theorem State.outPort_output (v : Word) : (s.outPort v).output = s.output ++ [v] := rfl
@[simp] theorem State.outPort_traceEn (v : Word) : (s.outPort v).traceEn = s.traceEn := rfl
@[simp] theorem State.outPort_trace (v : Word) : (s.outPort v).trace = s.trace := rfl
@[simp] theorem State.outPort_count (v : Word) : (s.outPort v).count = s.count := rfl

@[simp] theorem State.retire_regs (i : Instr) (t : State) :
    (s.retire i t).regs = t.regs := rfl
@[simp] theorem State.retire_dmem (i : Instr) (t : State) :
    (s.retire i t).dmem = t.dmem := rfl
@[simp] theorem State.retire_pc (i : Instr) (t : State) :
    (s.retire i t).pc = t.pc := rfl
@[simp] theorem State.retire_status (i : Instr) (t : State) :
    (s.retire i t).status = t.status := rfl
@[simp] theorem State.retire_imem (i : Instr) (t : State) :
    (s.retire i t).imem = t.imem := rfl
@[simp] theorem State.retire_input (i : Instr) (t : State) :
    (s.retire i t).input = t.input := rfl
@[simp] theorem State.retire_output (i : Instr) (t : State) :
    (s.retire i t).output = t.output := rfl
@[simp] theorem State.retire_traceEn (i : Instr) (t : State) :
    (s.retire i t).traceEn = t.traceEn := rfl
@[simp] theorem State.retire_trace (i : Instr) (t : State) :
    (s.retire i t).trace = if !t.status.isFault && t.traceEn then t.trace ++ [⟨s.pc, i, changedRegs s t⟩]
      else t.trace := rfl
@[simp] theorem State.retire_count (i : Instr) (t : State) :
    (s.retire i t).count = if t.status.isFault then t.count else t.count + 1 := rfl

@[simp] theorem State.placeNext_regs (w : InstrWord) : (s.placeNext w).regs = s.regs := rfl
@[simp] theorem State.placeNext_dmem (w : InstrWord) : (s.placeNext w).dmem = s.dmem := rfl
@[simp] theorem State.placeNext_pc (w : InstrWord) : (s.placeNext w).pc = s.pc := rfl
@[simp] theorem State.placeNext_status (w : InstrWord) : (s.placeNext w).status = .running := rfl
@[simp] theorem State.placeNext_imem (w : InstrWord) : (s.placeNext w).imem = placeWord s.imem s.pc.toNat w := rfl
@[simp] theorem State.placeNext_input (w : InstrWord) : (s.placeNext w).input = s.input := rfl
@[simp] theorem State.placeNext_output (w : InstrWord) : (s.placeNext w).output = s.output := rfl
@[simp] theorem State.placeNext_traceEn (w : InstrWord) : (s.placeNext w).traceEn = s.traceEn := rfl
@[simp] theorem State.placeNext_trace (w : InstrWord) : (s.placeNext w).trace = s.trace := rfl
@[simp] theorem State.placeNext_count (w : InstrWord) : (s.placeNext w).count = s.count := rfl

@[simp] theorem State.applyReset_regs (b : Bool) : (s.applyReset b).regs = State.reset.regs := rfl
@[simp] theorem State.applyReset_dmem (b : Bool) : (s.applyReset b).dmem = State.reset.dmem := rfl
@[simp] theorem State.applyReset_pc (b : Bool) : (s.applyReset b).pc = State.reset.pc := rfl
@[simp] theorem State.applyReset_status (b : Bool) : (s.applyReset b).status = State.reset.status := rfl
@[simp] theorem State.applyReset_imem (b : Bool) : (s.applyReset b).imem = s.imem := rfl
@[simp] theorem State.applyReset_input (b : Bool) : (s.applyReset b).input = s.input := rfl
@[simp] theorem State.applyReset_output (b : Bool) : (s.applyReset b).output = State.reset.output := rfl
@[simp] theorem State.applyReset_traceEn (b : Bool) : (s.applyReset b).traceEn = b := rfl
@[simp] theorem State.applyReset_trace (b : Bool) : (s.applyReset b).trace = State.reset.trace := rfl
@[simp] theorem State.applyReset_count (b : Bool) : (s.applyReset b).count = State.reset.count := rfl

/-- A read of a register sees the register file alone. -/
theorem State.readReg_eq (r : RegIdx) : s.readReg r = RegFile.read s.regs r := rfl

/-- A read of the data memory sees the data memory alone. -/
theorem State.memRead_eq (a : Nat) : s.memRead a = Memory.read s.dmem a := rfl

/-- A fetch sees the program counter and the Program alone. -/
theorem State.fetch_eq : s.fetch = s.imem[s.pc.toNat]? := rfl

end Sys2Proof.Machine
end

