-- ==== Sys2Proof/Laws/Memory.lean ====
section
/-! SUPPORT. The laws of the data memory: every operation keeps the canonical form, a read after a
write gives the value written, and a write leaves every other address alone (20_memory.md R52, R53). -/

namespace Sys2Proof.Machine

theorem Memory.wfFrom_cons {lo a : Nat} {v : Word} {m : Memory} :
    Memory.wfFrom lo ((a, v) :: m) = true ↔
      lo ≤ a ∧ a < 65536 ∧ v ≠ Memory.unlisted ∧ Memory.wfFrom (a + 1) m = true := by
  simp [Memory.wfFrom, and_assoc]

theorem Memory.wfFrom_mono {lo lo' : Nat} (h : lo' ≤ lo) :
    ∀ {m : Memory}, m.wfFrom lo = true → m.wfFrom lo' = true
  | [], _ => rfl
  | (_, _) :: _, hm => by
    rw [Memory.wfFrom_cons] at hm ⊢
    exact ⟨h.trans hm.1, hm.2⟩

/-- Below its first possible address a canonical memory lists nothing. -/
theorem Memory.read_below {lo : Nat} :
    ∀ {m : Memory}, m.wfFrom lo = true → ∀ {a : Nat}, a < lo → m.read a = Memory.unlisted
  | [], _, _, _ => rfl
  | (b, v) :: m, hm, a, ha => by
    rw [Memory.wfFrom_cons] at hm
    have hb : b ≠ a := by omega
    simp only [Memory.read, if_neg hb]
    exact Memory.read_below hm.2.2.2 (by omega)

theorem Memory.wfFrom_write {lo addr : Nat} {v : Word} (hlo : lo ≤ addr) (ha : addr < 65536) :
    ∀ {m : Memory}, m.wfFrom lo = true → (m.write addr v).wfFrom lo = true
  | [], _ => by
    unfold Memory.write
    split
    · rfl
    · rename_i h
      simp [hlo, ha, h, Memory.wfFrom]
  | (b, w) :: m, hm => by
    have hm' := Memory.wfFrom_cons.1 hm
    unfold Memory.write
    split
    · rename_i hb
      split
      · exact hm
      · rename_i h
        rw [Memory.wfFrom_cons]
        exact ⟨hlo, ha, h, Memory.wfFrom_cons.2 ⟨by omega, hm'.2⟩⟩
    · split
      · rename_i hb
        split
        · exact Memory.wfFrom_mono (by omega) hm'.2.2.2
        · rename_i h
          rw [Memory.wfFrom_cons]
          exact ⟨hlo, ha, h, by rw [hb]; exact hm'.2.2.2⟩
      · rw [Memory.wfFrom_cons]
        exact ⟨hm'.1, hm'.2.1, hm'.2.2.1, Memory.wfFrom_write (by omega) ha hm'.2.2.2⟩

/-- A store keeps the canonical form. -/
theorem Memory.wf_write {m : Memory} {addr : Nat} (v : Word) (ha : addr < 65536) (hm : m.wf = true) :
    (m.write addr v).wf = true := Memory.wfFrom_write (Nat.zero_le _) ha hm

theorem Memory.read_write_self_from {lo addr : Nat} {v : Word} :
    ∀ {m : Memory}, m.wfFrom lo = true → (m.write addr v).read addr = v
  | [], _ => by
    unfold Memory.write
    split
    · rename_i h; exact h.symm
    · simp [Memory.read]
  | (b, w) :: m, hm => by
    have hm' := Memory.wfFrom_cons.1 hm
    unfold Memory.write
    split
    · rename_i hb
      split
      · rename_i h
        rw [h]
        exact Memory.read_below (lo := addr + 1) (Memory.wfFrom_cons.2 ⟨by omega, hm'.2⟩) (by omega)
      · simp [Memory.read]
    · split
      · rename_i hb
        split
        · rename_i h
          rw [h]
          exact Memory.read_below hm'.2.2.2 (by omega)
        · simp [Memory.read]
      · rename_i h1 h2
        have hne : b ≠ addr := fun e => h2 e.symm
        simp only [Memory.read, if_neg hne]
        exact Memory.read_write_self_from hm'.2.2.2

/-- A read after a write to the same address gives the Word written. -/
theorem Memory.read_write_self {m : Memory} (hm : m.wf = true) (addr : Nat) (v : Word) :
    (m.write addr v).read addr = v := Memory.read_write_self_from hm

/-- A write leaves every other address alone. -/
theorem Memory.read_write_ne {addr a : Nat} (v : Word) (h : a ≠ addr) :
    ∀ m : Memory, (m.write addr v).read a = m.read a
  | [] => by
    unfold Memory.write
    split
    · rfl
    · simp [Memory.read, h.symm]
  | (b, w) :: m => by
    unfold Memory.write
    split
    · split
      · rfl
      · rw [Memory.read, if_neg h.symm]
    · split
      · rename_i hb
        have hba : b ≠ a := fun e => h (e.symm.trans hb.symm)
        split
        · rw [Memory.read, if_neg hba]
        · rw [Memory.read, if_neg h.symm, Memory.read, if_neg hba]
      · simp only [Memory.read]
        split
        · rfl
        · exact Memory.read_write_ne v h m

/-- The reset memory has the canonical form. -/
theorem reset_dmem_wf : State.reset.dmem.wf = true := rfl

theorem State.memRead_memWrite_self {s : State} (h : s.dmem.wf = true) (a : Nat) (v : Word) :
    (s.memWrite a v).memRead a = v := Memory.read_write_self h a v

theorem State.memRead_memWrite_ne (s : State) {a b : Nat} (h : b ≠ a) (v : Word) :
    (s.memWrite a v).memRead b = s.memRead b := Memory.read_write_ne v h s.dmem

end Sys2Proof.Machine
end

