-- ==== Sys2Proof/Laws/RegFile.lean ====
section
/-! SUPPORT. The laws of the register file: register 0 is hard-wired, a read after a write gives the
value written, and a write leaves every other register alone (10_state.md R22, R23). -/

namespace Sys2Proof.Machine

@[simp] theorem RegFile.read_zero (f : RegFile) : f.read 0 = 0 := rfl

/-- A write to register 0 is discarded. -/
@[simp] theorem RegFile.write_zero (f : RegFile) (v : Word) : f.write 0 v = f := rfl

theorem RegFile.read_write_self (f : RegFile) {r : RegIdx} (h : r ≠ 0) (v : Word) :
    (f.write r v).read r = v := by
  simp [RegFile.read, RegFile.write, h]

theorem RegFile.read_write_ne (f : RegFile) {r q : RegIdx} (h : q ≠ r) (v : Word) :
    (f.write r v).read q = f.read q := by
  have hv : r.val ≠ q.val := fun e => h (Fin.ext e.symm)
  unfold RegFile.read RegFile.write
  split
  · rfl
  · split
    · rfl
    · exact Vector.getElem_set_ne _ _ hv

/-- What a read after a write gives, for every register. -/
theorem RegFile.read_write (f : RegFile) (r q : RegIdx) (v : Word) :
    (f.write r v).read q = if q = r ∧ r ≠ 0 then v else f.read q := by
  by_cases hr : r = 0
  · simp [hr]
  · by_cases hq : q = r
    · subst hq; simp [hr, RegFile.read_write_self]
    · simp [hq, RegFile.read_write_ne]

/-- No write touches the stored slot of register 0. -/
theorem RegFile.write_slot_zero (f : RegFile) (r : RegIdx) (v : Word) : (f.write r v)[0] = f[0] := by
  unfold RegFile.write
  split
  · rfl
  · rename_i h
    exact Vector.getElem_set_ne _ _ fun e => h (Fin.ext e)

/-- Register 0 always reads 0x0000. -/
@[simp] theorem State.readReg_zero (s : State) : s.readReg 0 = 0 := rfl

theorem State.readReg_writeReg_self (s : State) {r : RegIdx} (h : r ≠ 0) (v : Word) :
    (s.writeReg r v).readReg r = v := RegFile.read_write_self _ h v

theorem State.readReg_writeReg_ne (s : State) {r q : RegIdx} (h : q ≠ r) (v : Word) :
    (s.writeReg r v).readReg q = s.readReg q := RegFile.read_write_ne _ h v

@[simp] theorem State.writeReg_zero (s : State) (v : Word) : s.writeReg 0 v = s := rfl

/-- A write changes the value of at most one register, and never of register 0. -/
theorem changedRegs_writeReg (s : State) (r : RegIdx) (v : Word) (p : RegIdx × Word)
    (h : p ∈ changedRegs s (s.writeReg r v)) : p.1 = r ∧ p.1 ≠ 0 := by
  simp only [changedRegs, List.mem_filterMap] at h
  obtain ⟨q, -, h⟩ := h
  split at h
  · cases h
  · rename_i hne
    obtain rfl : (q, _) = p := by simpa using h
    constructor
    · by_contra hq
      exact hne (State.readReg_writeReg_ne s hq v).symm
    · rintro rfl
      exact hne rfl

end Sys2Proof.Machine
end

