-- ==== Sys2Proof/Laws/Exec.lean ====
section
/-! SUPPORT. What each shared operation and each meaning does, said once. -/

namespace Sys2Proof.Machine

theorem wordAdd_eq (x y : Word) : wordAdd x y = x + y := by
  apply BitVec.eq_of_toNat_eq
  simp only [wordAdd, mask16, BitVec.toNat_ofInt, BitVec.toNat_add]
  omega

theorem wordSub_eq (x y : Word) : wordSub x y = x - y := by
  apply BitVec.eq_of_toNat_eq
  have hx := x.isLt
  have hy := y.isLt
  simp only [wordSub, mask16, BitVec.toNat_ofInt, BitVec.toNat_sub]
  omega

/-- The sum is taken modulo 65536 (40_alu.md R120). -/
theorem wordAdd_toNat (x y : Word) : (wordAdd x y).toNat = (x.toNat + y.toNat) % 65536 := by
  rw [wordAdd_eq, BitVec.toNat_add]

/-- An address in range is used as it stands. -/
theorem effectiveAddr_of_inRange {addr : Int} (h : addrInRange addr = true) :
    effectiveAddr addr = some addr.toNat := if_pos h

theorem effectiveAddr_eq_some {addr : Int} {a : Nat} :
    effectiveAddr addr = some a ↔ addr = (a : Int) ∧ a < 65536 := by
  unfold effectiveAddr addrInRange
  split
  · rename_i h
    simp only [Bool.and_eq_true, decide_eq_true_eq] at h
    rw [Option.some_inj]
    omega
  · rename_i h
    simp only [Bool.and_eq_true, decide_eq_true_eq] at h
    constructor
    · intro h'; cases h'
    · intro h'; omega

theorem effectiveAddr_eq_none {addr : Int} :
    effectiveAddr addr = none ↔ addr < 0 ∨ 65535 < addr := by
  unfold effectiveAddr addrInRange
  split
  · rename_i h
    simp only [Bool.and_eq_true, decide_eq_true_eq] at h
    simp only [reduceCtorEq, false_iff]
    omega
  · rename_i h
    simp only [Bool.and_eq_true, decide_eq_true_eq] at h
    simp only [true_iff]
    omega

theorem branchIf_eq (c : Bool) (target : PC) (s : State) :
    branchIf c target s = s.setPc (if c then target else s.pc) := by
  cases c <;> rfl

theorem exec_beq (rs1 rs2 : RegIdx) (target : PC) (s : State) : exec (.beq rs1 rs2 target) s =
    .next (s.setPc (if s.readReg rs1 = s.readReg rs2 then target else s.pc)) := by
  by_cases h : s.readReg rs1 = s.readReg rs2 <;>
    simp [exec, execBeq, branchIf_eq, regOperand, wordsEqual, h]

theorem exec_bne (rs1 rs2 : RegIdx) (target : PC) (s : State) : exec (.bne rs1 rs2 target) s =
    .next (s.setPc (if s.readReg rs1 ≠ s.readReg rs2 then target else s.pc)) := by
  by_cases h : s.readReg rs1 = s.readReg rs2 <;>
    simp [exec, execBne, branchIf_eq, regOperand, wordsEqual, h]

/-- The five shapes of a transaction on the input port. -/
theorem inPort_cases (s : State) :
    (s.input = [] ∧ s.inPort = none) ∨
    (∃ rest, s.input = .endOfInput :: rest ∧ s.inPort = some (.endOfInput, s)) ∨
    (∃ v rest, s.input = .value v :: rest ∧ s.inPort = some (.value v, { s with input := rest })) ∨
    (∃ rest, s.input = .malformed :: rest ∧
      s.inPort = some (.malformed, { s with input := rest })) ∨
    (∃ rest, s.input = .outOfRange :: rest ∧
      s.inPort = some (.outOfRange, { s with input := rest })) := by
  unfold State.inPort
  rcases h : s.input with _ | ⟨r, rest⟩
  · simp
  · cases r <;> simp

/-- Everything an execution can do when it answers a next state, with the conditions it does it
under. -/
inductive ExecEffect (s : State) : Instr → State → Prop where
  | add (rd rs1 rs2 : RegIdx) : ExecEffect s (.add rd rs1 rs2)
      (s.writeReg rd (wordAdd (s.readReg rs1) (s.readReg rs2)))
  | sub (rd rs1 rs2 : RegIdx) : ExecEffect s (.sub rd rs1 rs2)
      (s.writeReg rd (wordSub (s.readReg rs1) (s.readReg rs2)))
  | and (rd rs1 rs2 : RegIdx) : ExecEffect s (.and rd rs1 rs2)
      (s.writeReg rd (s.readReg rs1 &&& s.readReg rs2))
  | or (rd rs1 rs2 : RegIdx) : ExecEffect s (.or rd rs1 rs2)
      (s.writeReg rd (s.readReg rs1 ||| s.readReg rs2))
  | xor (rd rs1 rs2 : RegIdx) : ExecEffect s (.xor rd rs1 rs2)
      (s.writeReg rd (s.readReg rs1 ^^^ s.readReg rs2))
  | addi (rd rs1 : RegIdx) (imm : Word) : ExecEffect s (.addi rd rs1 imm)
      (s.writeReg rd (wordAdd (s.readReg rs1) imm))
  | load (rd : RegIdx) (addr : Int) (a : Nat) (h : effectiveAddr addr = some a) :
      ExecEffect s (.ld rd addr) (s.writeReg rd (s.memRead a))
  | boundsLd (rd : RegIdx) (addr : Int) (h : effectiveAddr addr = none) :
      ExecEffect s (.ld rd addr) (s.raise .memBounds)
  | store (rs : RegIdx) (addr : Int) (a : Nat) (h : effectiveAddr addr = some a) :
      ExecEffect s (.st rs addr) (s.memWrite a (s.readReg rs))
  | boundsSt (rs : RegIdx) (addr : Int) (h : effectiveAddr addr = none) :
      ExecEffect s (.st rs addr) (s.raise .memBounds)
  | beq (rs1 rs2 : RegIdx) (target : PC) : ExecEffect s (.beq rs1 rs2 target)
      (s.setPc (if s.readReg rs1 = s.readReg rs2 then target else s.pc))
  | bne (rs1 rs2 : RegIdx) (target : PC) : ExecEffect s (.bne rs1 rs2 target)
      (s.setPc (if s.readReg rs1 ≠ s.readReg rs2 then target else s.pc))
  | jmp (target : PC) : ExecEffect s (.jmp target) (s.setPc target)
  | value (rd : RegIdx) (v : Word) (rest : List InResp) (h : s.input = .value v :: rest) :
      ExecEffect s (.inp rd) (State.writeReg { s with input := rest } rd v)
  | endOfInput (rd : RegIdx) (rest : List InResp) (h : s.input = .endOfInput :: rest) :
      ExecEffect s (.inp rd) (s.raise .inEndOfInput)
  | malformed (rd : RegIdx) (rest : List InResp) (h : s.input = .malformed :: rest) :
      ExecEffect s (.inp rd) (State.raise { s with input := rest } .inMalformed)
  | outOfRange (rd : RegIdx) (rest : List InResp) (h : s.input = .outOfRange :: rest) :
      ExecEffect s (.inp rd) (State.raise { s with input := rest } .inOutOfRange)
  | output (rs : RegIdx) : ExecEffect s (.out rs) (s.outPort (s.readReg rs))
  | halt : ExecEffect s .halt (s.setStatus .halted)

/-- The execution of an instruction answers a next state with one of those effects, or it is an IN
without an answer. -/
theorem exec_cases (i : Instr) (s : State) :
    (∃ t, exec i s = .next t ∧ ExecEffect s i t) ∨
    (∃ rd, i = .inp rd ∧ s.input = [] ∧ exec i s = .fault .awaitingInput) := by
  cases i with
  | add rd rs1 rs2 => exact .inl ⟨_, rfl, .add rd rs1 rs2⟩
  | sub rd rs1 rs2 => exact .inl ⟨_, rfl, .sub rd rs1 rs2⟩
  | and rd rs1 rs2 => exact .inl ⟨_, rfl, .and rd rs1 rs2⟩
  | or rd rs1 rs2 => exact .inl ⟨_, rfl, .or rd rs1 rs2⟩
  | xor rd rs1 rs2 => exact .inl ⟨_, rfl, .xor rd rs1 rs2⟩
  | addi rd rs1 imm => exact .inl ⟨_, rfl, .addi rd rs1 imm⟩
  | ld rd addr =>
    left
    rcases h : effectiveAddr addr with _ | a
    · exact ⟨_, by simp only [exec, execLd, h], .boundsLd _ _ h⟩
    · exact ⟨_, by simp only [exec, execLd, h], .load _ _ _ h⟩
  | st rs addr =>
    left
    rcases h : effectiveAddr addr with _ | a
    · exact ⟨_, by simp only [exec, execSt, h], .boundsSt _ _ h⟩
    · exact ⟨_, by simp only [exec, execSt, h, regOperand], .store _ _ _ h⟩
  | beq rs1 rs2 target =>
    exact .inl ⟨_, exec_beq rs1 rs2 target s, .beq rs1 rs2 target⟩
  | bne rs1 rs2 target =>
    exact .inl ⟨_, exec_bne rs1 rs2 target s, .bne rs1 rs2 target⟩
  | jmp target => exact .inl ⟨_, rfl, .jmp target⟩
  | inp rd =>
    rcases inPort_cases s with ⟨h, hp⟩ | ⟨rest, h, hp⟩ | ⟨v, rest, h, hp⟩ | ⟨rest, h, hp⟩ |
      ⟨rest, h, hp⟩
    · exact .inr ⟨rd, rfl, h, by simp only [exec, execInp, hp]⟩
    · exact .inl ⟨_, by simp only [exec, execInp, hp], .endOfInput rd rest h⟩
    · exact .inl ⟨_, by simp only [exec, execInp, hp], .value rd v rest h⟩
    · exact .inl ⟨_, by simp only [exec, execInp, hp], .malformed rd rest h⟩
    · exact .inl ⟨_, by simp only [exec, execInp, hp], .outOfRange rd rest h⟩
  | out rs => exact .inl ⟨_, rfl, .output rs⟩
  | halt => exact .inl ⟨_, rfl, .halt⟩

/-- The effect of an execution that answered a next state. -/
theorem exec_effect {i : Instr} {s t : State} (h : exec i s = .next t) : ExecEffect s i t := by
  rcases exec_cases i s with ⟨u, hu, he⟩ | ⟨rd, -, -, hf⟩
  · rw [hu] at h
    injection h with h
    exact h ▸ he
  · rw [hf] at h
    cases h

/-- Each effect is what the execution answers. -/
theorem exec_of_effect {i : Instr} {s t : State} (h : ExecEffect s i t) : exec i s = .next t := by
  cases h with
  | add | sub | and | or | xor | addi | jmp | output | halt => rfl
  | load rd addr a hz | boundsLd rd addr hz => simp only [exec, execLd, hz]
  | store rs addr a hz | boundsSt rs addr hz => simp only [exec, execSt, hz, regOperand]
  | beq => exact exec_beq ..
  | bne => exact exec_bne ..
  | value rd v rest hz | endOfInput rd rest hz | malformed rd rest hz | outOfRange rd rest hz =>
    simp only [exec, execInp, State.inPort, hz]

/-- No execution touches the Program, the trace or the count. -/
theorem exec_host_frame {i : Instr} {s t : State} (h : exec i s = .next t) :
    t.imem = s.imem ∧ t.traceEn = s.traceEn ∧ t.trace = s.trace ∧ t.count = s.count := by
  cases exec_effect h <;> exact ⟨rfl, rfl, rfl, rfl⟩

/-- What the execution of an encodable instruction can do to the run status: nothing, Halted by HALT,
or the fault of an IN whose cause its answer names. -/
theorem exec_status {i : Instr} {s t : State} (h : exec i s = .next t) (hi : i.wf = true) :
    t.status = s.status ∨ (i = .halt ∧ t.status = .halted) ∨
    ∃ rd, i = .inp rd ∧
      ((t.status = .runtimeFault .inEndOfInput ∧ s.input.head? = some .endOfInput) ∨
       (t.status = .runtimeFault .inMalformed ∧ s.input.head? = some .malformed) ∨
       (t.status = .runtimeFault .inOutOfRange ∧ s.input.head? = some .outOfRange)) := by
  cases exec_effect h with
  | boundsLd rd addr hz => rw [effectiveAddr_of_inRange hi] at hz; cases hz
  | boundsSt rd addr hz => rw [effectiveAddr_of_inRange hi] at hz; cases hz
  | endOfInput rd rest hz => exact .inr (.inr ⟨rd, rfl, .inl ⟨rfl, by rw [hz]; rfl⟩⟩)
  | malformed rd rest hz => exact .inr (.inr ⟨rd, rfl, .inr (.inl ⟨rfl, by rw [hz]; rfl⟩)⟩)
  | outOfRange rd rest hz => exact .inr (.inr ⟨rd, rfl, .inr (.inr ⟨rfl, by rw [hz]; rfl⟩)⟩)
  | halt => exact .inr (.inl ⟨rfl, rfl⟩)
  | add | sub | and | or | xor | addi | load | store | beq | bne | jmp | value | output =>
    exact .inl rfl

/-- Every execution keeps the canonical form of the data memory. -/
theorem exec_keeps_memWf {i : Instr} {s t : State} (h : exec i s = .next t)
    (hm : s.dmem.wf = true) : t.dmem.wf = true := by
  cases exec_effect h with
  | store rs addr a ha => exact Memory.wf_write _ (effectiveAddr_eq_some.1 ha).2 hm
  | add | sub | and | or | xor | addi | load | boundsLd | boundsSt | beq | bne | jmp | value
  | endOfInput | malformed | outOfRange | output | halt => exact hm

/-- No execution touches the stored slot of register 0. -/
theorem exec_keeps_slot_zero {i : Instr} {s t : State} (h : exec i s = .next t) :
    t.regs[0] = s.regs[0] := by
  cases exec_effect h with
  | add | sub | and | or | xor | addi | load | value => exact RegFile.write_slot_zero ..
  | store | boundsLd | boundsSt | beq | bne | jmp | endOfInput | malformed | outOfRange | output
  | halt => rfl

end Sys2Proof.Machine
end

