-- ==== Sys2Proof/Laws/Step.lean ====
section
/-! SUPPORT. What one step can do, said once (10_state.md R37). -/

namespace Sys2Proof.Machine

theorem step_of_stopped {s : State} (h : s.status ≠ .running) : step s = .next s := by
  unfold step cycle
  cases hs : s.status <;> simp_all

theorem step_of_running {s : State} (h : s.status = .running) :
    step s = match s.fetch with
      | none => .next (s.setStatus .outOfProgram)
      | some w => runWord s w := by
  cases hf : s.fetch <;> simp only [step, cycle, h, hf]

theorem step_of_legal {s : State} {w : InstrWord} {i : Instr} (h : s.status = .running)
    (hw : s.fetch = some w) (hi : decode w = .legal i) :
    step s = finishStep s i (exec i s.advance) := by
  simp only [step_of_running h, hw, runWord, hi]

theorem step_of_illegal {s : State} {w : InstrWord} {why : IllegalWord} (h : s.status = .running)
    (hw : s.fetch = some w) (hi : decode w = .illegal why) :
    step s = .next (s.advance.raise .unknownOpcode) := by
  simp only [step_of_running h, hw, runWord, hi, execIllegal]

/-- Everything a step can do when it answers a next state. -/
inductive StepEffect (s : State) : State → Prop where
  | stopped (h : s.status ≠ .running) : StepEffect s s
  | outOfProgram (h : s.status = .running) (hw : s.fetch = none) :
      StepEffect s (s.setStatus .outOfProgram)
  | illegal (w : InstrWord) (why : IllegalWord) (h : s.status = .running) (hw : s.fetch = some w)
      (hd : decode w = .illegal why) : StepEffect s (s.advance.raise .unknownOpcode)
  | executed (w : InstrWord) (i : Instr) (u : State) (h : s.status = .running)
      (hw : s.fetch = some w) (hd : decode w = .legal i) (hu : exec i s.advance = .next u) :
      StepEffect s (s.retire i u)

/-- A step answers a next state with one of those effects, or it waits inside an IN. -/
theorem step_cases (s : State) :
    (∃ t, step s = .next t ∧ StepEffect s t) ∨
    (s.WaitsForInput ∧ step s = .fault .awaitingInput) := by
  by_cases h : s.status = .running
  · rcases hw : s.fetch with _ | w
    · exact .inl ⟨_, by simp only [step_of_running h, hw], .outOfProgram h hw⟩
    · rcases hd : decode w with i | why
      · rcases exec_cases i s.advance with ⟨u, hu, -⟩ | ⟨rd, rfl, he, hf⟩
        · exact .inl ⟨_, by rw [step_of_legal h hw hd, hu]; rfl, .executed w i u h hw hd hu⟩
        · exact .inr ⟨⟨h, he, w, rd, hw, hd⟩, by rw [step_of_legal h hw hd, hf]; rfl⟩
      · exact .inl ⟨_, step_of_illegal h hw hd, .illegal w why h hw hd⟩
  · exact .inl ⟨s, step_of_stopped h, .stopped h⟩

/-- The effect of a step that answered a next state. -/
theorem step_effect {s t : State} (h : step s = .next t) : StepEffect s t := by
  rcases step_cases s with ⟨u, hu, he⟩ | ⟨-, hf⟩
  · rw [hu] at h
    injection h with h
    exact h ▸ he
  · rw [hf] at h
    cases h

/-- No steps leave the state as it is. -/
theorem run_zero (s : State) : Sys2Proof.core.run 0 s = .next s := rfl

/-- A run goes on from the next state of its first step. -/
theorem run_succ_of_next {s t : State} (h : step s = .next t) (n : Nat) :
    Sys2Proof.core.run (n + 1) s = Sys2Proof.core.run n t := by
  simp only [Host.Core.run]
  rw [show Sys2Proof.core.step s = .next t from h]

/-- A run stops where its first step does not complete. -/
theorem run_succ_of_fault {s : State} {f : Fault} (h : step s = .fault f) (n : Nat) :
    Sys2Proof.core.run (n + 1) s = .fault f := by
  simp only [Host.Core.run]
  rw [show Sys2Proof.core.step s = .fault f from h]

/-- The first step of a run that answers a next state completes. -/
theorem run_succ_eq_next {s u : State} {n : Nat} (h : Sys2Proof.core.run (n + 1) s = .next u) :
    ∃ t, step s = .next t ∧ Sys2Proof.core.run n t = .next u := by
  rcases step_cases s with ⟨t, ht, -⟩ | ⟨-, hf⟩
  · exact ⟨t, ht, by rw [← run_succ_of_next ht, h]⟩
  · rw [run_succ_of_fault hf] at h
    cases h

/-- Nothing is fetched exactly outside the Program. -/
theorem fetch_eq_none {s : State} : s.fetch = none ↔ s.imem.length ≤ s.pc.toNat := by
  simp [State.fetch]

/-- The decoder gives no instruction exactly where it answers Illegal. -/
theorem toOption_eq_none {d : Decoded} : d.toOption = none ↔ ∃ why, d = .illegal why := by
  cases d <;> simp [Decoded.toOption]

/-- A fetched word lies inside the Program. -/
theorem pc_lt_of_fetch {s : State} {w : InstrWord} (h : s.fetch = some w) :
    s.pc.toNat < s.imem.length := (List.getElem?_eq_some_iff.1 h).1

/-- Inside an admitted Program the advance does not wrap (10_state.md R30). -/
theorem advance_pc_toNat {s : State} {w : InstrWord} (h : s.fetch = some w)
    (hp : s.imem.length ≤ 65535) : (s.pc + 1).toNat = s.pc.toNat + 1 := by
  have := pc_lt_of_fetch h
  rw [BitVec.toNat_add]
  simp
  omega

end Sys2Proof.Machine
end

