-- ==== Sys2Proof/Laws/Driver.lean ====
section
/-! SUPPORT. What one pass of the driver's loop does, said once (60_exceptions.md R185). -/

namespace Sys2Proof.Machine

/-- A stopped machine, and a ceiling of no steps, end the loop. -/
theorem runFor_stop {n : Nat} {s : State} (h : s.status ≠ .running ∨ n = 0) :
    runFor n s = runResult s := by
  cases n with
  | zero => rfl
  | succ n =>
    unfold runFor
    cases hs : s.status with
    | running => rcases h with h | h <;> simp_all
    | halted | outOfProgram | runtimeFault c => rfl

/-- The loop goes on from the next state. -/
theorem runFor_next {n : Nat} {s t : State} (hr : s.status = .running) (h : step s = .next t) :
    runFor (n + 1) s = runFor n t := by
  conv => lhs; unfold runFor
  simp only [hr, show cycle s = .next t from h]

/-- A step that waits leaves the loop waiting. -/
theorem runFor_wait {n : Nat} {s : State} {f : Fault} (hr : s.status = .running)
    (h : step s = .fault f) : runFor (n + 1) s = .waiting s := by
  unfold runFor
  simp only [hr, show cycle s = .fault f from h]

/-- What the driver reports of the state it stops in: a fault, or a return with that state's count. -/
theorem runResult_cases (s : State) :
    (∃ c, s.status = .runtimeFault c ∧ runResult s = .faulted c s) ∨
    ((s.status = .halted ∨ s.status = .outOfProgram ∨ s.status = .running) ∧
      runResult s = .returned s.count s) := by
  unfold runResult
  cases h : s.status <;> simp

end Sys2Proof.Machine
end

