-- ==== Sys2Proof/Laws/PerInstr.lean ====
section
/-! SUPPORT. Statements made per instruction: the round trip through the instruction word, one lemma
for each constructor (30_encoding.md R83). -/

namespace Sys2Proof.Laws

/-- A word with clear must-be-zero bits and these fields decodes to the instruction of the fields. -/
theorem decode_joinWord (o : Opcode) (a b : RegIdx) (k : BitVec 16)
    (hz : joinWord o a b k &&& o.format.mustBeZero = 0) :
    decode (joinWord o a b k) = .legal (instrOfFields o (joinWord o a b k)) :=
  decode_of_opcode (opField_joinWord o a b k) hz

/-- Format R leaves its must-be-zero bits clear. -/
theorem clear_r (o : Opcode) (a b c : RegIdx) :
    joinWord o a b (BitVec.ofNat 16 c.val) &&& Format.r.mustBeZero = 0 := by
  rw [mustBeZero_r, joinWord_toNat, BitVec.toNat_ofNat]
  omega

/-- Formats I and B leave their must-be-zero bits clear. -/
theorem clear_i (o : Opcode) (a b : RegIdx) (k : BitVec 16) :
    joinWord o a b k &&& Format.i.mustBeZero = 0 := by
  have hk := k.isLt
  rw [mustBeZero_i, joinWord_toNat]
  omega

/-- Format M leaves its must-be-zero bits clear. -/
theorem clear_m (o : Opcode) (a : RegIdx) (k : BitVec 16) :
    joinWord o a 0 k &&& Format.m.mustBeZero = 0 := by
  have hk := k.isLt
  rw [mustBeZero_m, joinWord_toNat, show ((0 : RegIdx) : Nat) = 0 from rfl]
  omega

/-- Format J leaves its must-be-zero bits clear. -/
theorem clear_j (o : Opcode) (k : BitVec 16) : joinWord o 0 0 k &&& Format.j.mustBeZero = 0 := by
  have hk := k.isLt
  rw [mustBeZero_j, joinWord_toNat, show ((0 : RegIdx) : Nat) = 0 from rfl]
  omega

/-- Format P leaves its must-be-zero bits clear. -/
theorem clear_p (o : Opcode) (a : RegIdx) : joinWord o a 0 0 &&& Format.p.mustBeZero = 0 := by
  rw [mustBeZero_p, joinWord_toNat, show ((0 : RegIdx) : Nat) = 0 from rfl,
    show (0 : BitVec 16).toNat = 0 from rfl]
  omega

namespace RoundTrip

/-- Decoding the encoding of a well-formed instruction gives the instruction back. -/
def Statement (i : Instr) : Prop := i.wf = true → decode (encode i) = .legal i

/-- The round trip of format R. -/
theorem of_r (o : Opcode) (hf : o.format = .r) (a b c : RegIdx) (i : Instr)
    (hi : ∀ w, regOfField (aField w) = a → regOfField (bField w) = b → regOfField (cField w) = c →
      instrOfFields o w = i) :
    decode (opBits o ||| aBits a ||| bBits b ||| cBits c) = .legal i := by
  rw [cBits_eq_kBits]
  have h := decode_joinWord o a b (BitVec.ofNat 16 c.val) (by rw [hf]; exact clear_r o a b c)
  rw [hi _ (regOfField_aField_joinWord ..) (regOfField_bField_joinWord ..)
    (regOfField_cField_joinWord ..)] at h
  exact h

/-- The round trip of formats I and B. -/
theorem of_i (o : Opcode) (hf : o.format.mustBeZero = Format.i.mustBeZero) (a b : RegIdx)
    (k : BitVec 16) (i : Instr)
    (hi : ∀ w, regOfField (aField w) = a → regOfField (bField w) = b → kField w = k →
      instrOfFields o w = i) :
    decode (opBits o ||| aBits a ||| bBits b ||| kBits k) = .legal i := by
  have h := decode_joinWord o a b k (by rw [hf]; exact clear_i o a b k)
  rw [hi _ (regOfField_aField_joinWord ..) (regOfField_bField_joinWord ..)
    (kField_joinWord ..)] at h
  exact h

/-- The round trip of format M. -/
theorem of_m (o : Opcode) (hf : o.format = .m) (a : RegIdx) (addr : Int) (i : Instr)
    (ha : addrInRange addr = true)
    (hi : ∀ w, regOfField (aField w) = a → ((kField w).toNat : Int) = addr →
      instrOfFields o w = i) :
    decode (opBits o ||| aBits a ||| kBits (mask16 addr)) = .legal i := by
  have h := decode_joinWord o a 0 (mask16 addr) (by rw [hf]; exact clear_m o a _)
  rw [hi _ (regOfField_aField_joinWord ..)
    (by rw [kField_joinWord]; exact mask16_toNat_of_addrInRange ha), joinWord_ak] at h
  exact h

/-- The round trip of format P. -/
theorem of_p (o : Opcode) (hf : o.format = .p) (a : RegIdx) (i : Instr)
    (hi : ∀ w, regOfField (aField w) = a → instrOfFields o w = i) :
    decode (opBits o ||| aBits a) = .legal i := by
  have h := decode_joinWord o a 0 0 (by rw [hf]; exact clear_p o a)
  rw [hi _ (regOfField_aField_joinWord ..), joinWord_a] at h
  exact h

theorem add (rd rs1 rs2 : RegIdx) : Statement (.add rd rs1 rs2) := fun _ =>
  of_r .add rfl rd rs1 rs2 _ (by rintro w rfl rfl rfl; rfl)

theorem sub (rd rs1 rs2 : RegIdx) : Statement (.sub rd rs1 rs2) := fun _ =>
  of_r .sub rfl rd rs1 rs2 _ (by rintro w rfl rfl rfl; rfl)

theorem and (rd rs1 rs2 : RegIdx) : Statement (.and rd rs1 rs2) := fun _ =>
  of_r .and rfl rd rs1 rs2 _ (by rintro w rfl rfl rfl; rfl)

theorem or (rd rs1 rs2 : RegIdx) : Statement (.or rd rs1 rs2) := fun _ =>
  of_r .or rfl rd rs1 rs2 _ (by rintro w rfl rfl rfl; rfl)

theorem xor (rd rs1 rs2 : RegIdx) : Statement (.xor rd rs1 rs2) := fun _ =>
  of_r .xor rfl rd rs1 rs2 _ (by rintro w rfl rfl rfl; rfl)

theorem addi (rd rs1 : RegIdx) (imm : Word) : Statement (.addi rd rs1 imm) := fun _ =>
  of_i .addi rfl rd rs1 imm _ (by rintro w rfl rfl rfl; rfl)

theorem ld (rd : RegIdx) (addr : Int) : Statement (.ld rd addr) := fun h =>
  of_m .ld rfl rd addr _ h (by rintro w rfl rfl; rfl)

theorem st (rs : RegIdx) (addr : Int) : Statement (.st rs addr) := fun h =>
  of_m .st rfl rs addr _ h (by rintro w rfl rfl; rfl)

theorem beq (rs1 rs2 : RegIdx) (target : PC) : Statement (.beq rs1 rs2 target) := fun _ =>
  of_i .beq rfl rs1 rs2 target _ (by rintro w rfl rfl rfl; rfl)

theorem bne (rs1 rs2 : RegIdx) (target : PC) : Statement (.bne rs1 rs2 target) := fun _ =>
  of_i .bne rfl rs1 rs2 target _ (by rintro w rfl rfl rfl; rfl)

theorem jmp (target : PC) : Statement (.jmp target) := fun _ => by
  have h := decode_joinWord .jmp 0 0 target (clear_j .jmp target)
  have hk : instrOfFields .jmp (joinWord .jmp 0 0 target) = .jmp target :=
    congrArg Instr.jmp (kField_joinWord .jmp 0 0 target)
  rw [hk, joinWord_k] at h
  exact h

theorem inp (rd : RegIdx) : Statement (.inp rd) := fun _ =>
  of_p .inp rfl rd _ (by rintro w rfl; rfl)

theorem out (rs : RegIdx) : Statement (.out rs) := fun _ =>
  of_p .out rfl rs _ (by rintro w rfl; rfl)

theorem halt : Statement .halt := fun _ => by decide

end RoundTrip

end Sys2Proof.Laws
end

