-- ==== Sys2Proof/Tests/Slice0.lean ====
section
/-! SUPPORT. The model's own tests: refusals of ill-formed terms, decoding of words written out from
the spec's encoding, small one-step checks, the host side, and witnesses for the statements'
hypotheses. Expected values are those of 95_test_vectors.md, named by their ids. -/

namespace Sys2Proof.Tests

open Sys2Proof.Machine

/-- A state with a Program, answers on the input port, and register contents; the rest as at reset. -/
def mk (prog : List InstrWord) (input : List InResp) (regs : List (RegIdx × Word)) : State :=
  { State.reset with imem := prog, input := input, regs := initRegs State.reset.regs regs }

/-- The same, not at the reset's index 0 but at `pc`. -/
def mkAt (pc : PC) (prog : List InstrWord) (regs : List (RegIdx × Word)) : State :=
  { mk prog [] regs with pc := pc }

/-- The outcome is a next state with the property. -/
def nextWith (o : Host.Outcome State Fault Refusal) (p : State → Bool) : Bool :=
  match o with
  | .next t => p t
  | .fault _ => false
  | .refused _ => false

/-- The outcome is the wait for input. -/
def waits (o : Host.Outcome State Fault Refusal) : Bool :=
  match o with
  | .next _ => false
  | .fault .awaitingInput => true
  | .refused _ => false

theorem exists_next {o : Host.Outcome State Fault Refusal} {p : State → Bool}
    (h : nextWith o p = true) : ∃ t, o = .next t ∧ p t = true := by
  cases o with
  | next t => exact ⟨t, rfl, h⟩
  | fault f => cases h
  | refused r => cases h

theorem fault_of_waits {o : Host.Outcome State Fault Refusal} (h : waits o = true) :
    o = .fault .awaitingInput := by
  cases o with
  | next t => cases h
  | fault f => cases f; rfl
  | refused r => cases h

/-! ### Well-formedness: the one check refuses -/

theorem test_wf_ld_below : Instr.wf (.ld 2 (-1)) = false := by decide

theorem test_wf_ld_above : Instr.wf (.ld 2 65536) = false := by decide

theorem test_wf_st_below : Instr.wf (.st 1 (-1)) = false := by decide

theorem test_wf_st_above : Instr.wf (.st 1 65536) = false := by decide

theorem test_wf_edges : Instr.wf (.ld 31 65535) = true ∧ Instr.wf (.st 0 0) = true := by decide

/-! ### Decoding, the words written out as {op, a, b, z, k} (vectors V and X) -/

theorem test_decode_add : decode 0b0000_00011_00001_00_0000000000000010 = .legal (.add 3 1 2) := by
  decide

theorem test_decode_add_max : decode 0b0000_11111_11111_00_0000000000011111 = .legal (.add 31 31 31) := by
  decide

theorem test_decode_sub : decode 0b0001_00011_00001_00_0000000000000010 = .legal (.sub 3 1 2) := by
  decide

theorem test_decode_and : decode 0b0010_00011_00001_00_0000000000000010 = .legal (.and 3 1 2) := by
  decide

theorem test_decode_or : decode 0b0011_00011_00001_00_0000000000000010 = .legal (.or 3 1 2) := by
  decide

theorem test_decode_xor : decode 0b0100_00011_00001_00_0000000000000010 = .legal (.xor 3 1 2) := by
  decide

theorem test_decode_addi : decode 0b0101_00001_00000_00_1111111111111010 = .legal (.addi 1 0 65530) := by
  decide

theorem test_decode_ld : decode 0b0110_11111_00000_00_1111111111111111 = .legal (.ld 31 65535) := by
  decide

theorem test_decode_st : decode 0b0111_00001_00000_00_0000000000100000 = .legal (.st 1 32) := by
  decide

theorem test_decode_beq : decode 0b1000_00001_00010_00_0000000000000101 = .legal (.beq 1 2 5) := by
  decide

theorem test_decode_bne : decode 0b1001_00001_00010_00_0000000000000101 = .legal (.bne 1 2 5) := by
  decide

theorem test_decode_jmp : decode 0b1010_00000_00000_00_1111111111111111 = .legal (.jmp 65535) := by
  decide

theorem test_decode_in : decode 0b1011_11111_00000_00_0000000000000000 = .legal (.inp 31) := by
  decide

theorem test_decode_out : decode 0b1100_00001_00000_00_0000000000000000 = .legal (.out 1) := by
  decide

theorem test_decode_halt : decode 0b1101_00000_00000_00_0000000000000000 = .legal .halt := by
  decide

/-- Vectors X1 to X17. -/
theorem test_decode_illegal :
    (([0xE0000000, 0xF0000000, 0xFFFFFFFF, 0x00000020, 0x00010000, 0x0FFC003F, 0x50010000,
        0x60040000, 0x70020000] : List InstrWord) ++
      [0xA0800000, 0xA0040000, 0xB0800001, 0xC0008000, 0xD0000001, 0xD0800000, 0x8FFFFFFF,
        0x9FFEFFFF]).all (fun w => (decode w).toOption == none) = true := by decide

/-- The encoder gives vectors V3, V11, V13, V15, V17, V20, V22, V25, V29, V30. -/
theorem test_encode :
    encode (.add 31 31 31) = 0x0FFC001F ∧ encode (.addi 31 31 65535) = 0x5FFCFFFF ∧
    encode (.ld 31 65535) = 0x6F80FFFF ∧ encode (.st 31 65535) = 0x7F80FFFF ∧
    encode (.beq 31 31 65535) = 0x8FFCFFFF ∧ encode (.jmp 65535) = 0xA000FFFF ∧
    encode (.inp 31) = 0xBF800000 ∧ encode .halt = 0xD0000000 ∧
    encode (.bne 31 31 65535) = 0x9FFCFFFF ∧ encode (.out 31) = 0xCF800000 := by decide

theorem test_decodeTableWord : decodeTableWord 32 0x80880005 = some (.beq 1 2 5) ∧
    decodeTableWord 32 0xE0000000 = none := by decide

/-! ### One step of each instruction (vectors of 2.2 to 2.7) -/

theorem test_add_wraps : nextWith (exec (.add 3 1 2) (mk [] [] [(1, 0xFFFF), (2, 0x0001)]))
    (fun t => t.readReg 3 == 0x0000) = true := by decide

theorem test_add_same_register : nextWith (exec (.add 1 1 1) (mk [] [] [(1, 0x8001)]))
    (fun t => t.readReg 1 == 0x0002) = true := by decide

theorem test_sub_borrows : nextWith (exec (.sub 3 1 2) (mk [] [] [(1, 0x0003), (2, 0x0005)]))
    (fun t => t.readReg 3 == 0xFFFE) = true := by decide

theorem test_sub_register_zero : nextWith (exec (.sub 3 0 1) (mk [] [] [(1, 0x1234)]))
    (fun t => t.readReg 3 == 0xEDCC) = true := by decide

theorem test_and : nextWith (exec (.and 3 1 2) (mk [] [] [(1, 0x1234), (2, 0xFEDC)]))
    (fun t => t.readReg 3 == 0x1214) = true := by decide

theorem test_or : nextWith (exec (.or 3 1 2) (mk [] [] [(1, 0x1234), (2, 0xFEDC)]))
    (fun t => t.readReg 3 == 0xFEFC) = true := by decide

theorem test_xor : nextWith (exec (.xor 3 1 2) (mk [] [] [(1, 0x1234), (2, 0xFEDC)]))
    (fun t => t.readReg 3 == 0xECE8) = true := by decide

theorem test_addi_wraps : nextWith (exec (.addi 1 1 10) (mk [] [] [(1, 0xFFFA)]))
    (fun t => t.readReg 1 == 0x0004) = true := by decide

theorem test_addi_high_bit : nextWith (exec (.addi 2 1 0x8000) (mk [] [] [(1, 0x8000)]))
    (fun t => t.readReg 2 == 0x0000) = true := by decide

theorem test_ld : nextWith (exec (.ld 2 0x20) { State.reset with dmem := [(0x20, 0x003C)] })
    (fun t => t.readReg 2 == 0x003C) = true := by decide

theorem test_ld_register_zero : nextWith (exec (.ld 0 0x10) { State.reset with dmem := [(0x10, 7)] })
    (fun t => t.readReg 0 == 0) = true := by decide

theorem test_st_top : nextWith (exec (.st 31 65535) (mk [] [] [(31, 0xBEEF)]))
    (fun t => t.memRead 65535 == 0xBEEF && t.memRead 0 == 0) = true := by decide

theorem test_st_zero_unlists : nextWith (exec (.st 0 0x10) { State.reset with dmem := [(0x10, 7)] })
    (fun t => t.dmem == []) = true := by decide

theorem test_beq_taken : nextWith (step (mkAt 2 (List.replicate 10 0x80880005) [(1, 7), (2, 7)]))
    (fun t => t.pc == 5) = true := by decide

theorem test_beq_all_bits : nextWith (step (mkAt 2 (List.replicate 10 0x80880005) [(1, 0x8000)]))
    (fun t => t.pc == 3) = true := by decide

theorem test_bne_not_taken : nextWith (step (mkAt 2 (List.replicate 10 0x90880005) [(1, 7), (2, 7)]))
    (fun t => t.pc == 3) = true := by decide

theorem test_bne_taken : nextWith (step (mkAt 2 (List.replicate 10 0x90880005) [(1, 7), (2, 8)]))
    (fun t => t.pc == 5) = true := by decide

theorem test_jmp_out_of_program : nextWith (step (mkAt 2 (List.replicate 10 0xA000000A) []))
    (fun t => t.pc == 10 && t.status == .running &&
      nextWith (step t) (fun u => u.pc == 10 && u.status == .outOfProgram)) = true := by decide

theorem test_in_value : nextWith (step (mk [0xB0800000] [.value 0x007B] []))
    (fun t => t.readReg 1 == 0x007B && t.pc == 1 && t.status == .running && t.input == []) = true := by
  decide

theorem test_in_out_of_range : nextWith (step (mk [0xB0800000] [.outOfRange] [(1, 9)]))
    (fun t => t.status == .runtimeFault .inOutOfRange && t.readReg 1 == 9 && t.pc == 1 &&
      t.count == 0 && t.statusPort == 0b01111) = true := by decide

theorem test_out : nextWith (step (mk [0xC0800000] [] [(1, 0x002A)]))
    (fun t => t.output == [0x002A] && t.count == 1) = true := by decide

theorem test_halt : nextWith (step (mk [0xD0000000, 0xC0000000] [] []))
    (fun t => t.pc == 1 && t.status == .halted && t.count == 1 &&
      nextWith (step t) (fun u => u == t)) = true := by decide

theorem test_illegal_word : nextWith (step (mk [0xD0000001] [] []))
    (fun t => t.pc == 1 && t.status == .runtimeFault .unknownOpcode && t.count == 0) = true := by decide

theorem test_empty_program : nextWith (step State.reset)
    (fun t => t.pc == 0 && t.status == .outOfProgram && t.count == 0) = true := by decide

theorem test_withFetchWord : nextWith (step (State.reset.withFetchWord 32 0x5080FFFA))
    (fun t => t.readReg 1 == 65530 && t.pc == 1) = true := by decide

theorem test_trace_record : nextWith (step { mk [0x5080FFFA] [] [] with traceEn := true })
    (fun t => t.trace == [⟨0, .addi 1 0 65530, [(1, 0xFFFA)]⟩]) = true := by decide

theorem test_trace_unchanged : nextWith (step { mk [0x51000000] [] [] with traceEn := true })
    (fun t => t.trace == [⟨0, .addi 2 0 0, []⟩]) = true := by decide

/-! ### The host side (vectors of 2.5, 2.6, 2.8, 2.9) -/

theorem test_literals_accepted :
    parseLiteral "007".toList = some 7 ∧ parseLiteral "-2".toList = some (-2) ∧
    parseLiteral "0X003c".toList = some 60 ∧ parseLiteral "-0x000A".toList = some (-10) ∧
    parseLiteral "  123  ".toList = some 123 ∧ parseLiteral "0x10000".toList = some 65536 := by decide

theorem test_literals_rejected :
    ∀ t ∈ ["", "  ", "+", "0x", "-0x", "--5", "+-5", "0x-5", "1 2"] ++
        ["12a", "0xG1", "x10", "- 5", "0b101", "1_000", "0x 1F"],
      parseLiteral t.toList = none := by decide

theorem test_in_lines :
    lineResponse "0xFFFE".toList = .value 0xFFFE ∧ lineResponse "-32768".toList = .value 0x8000 ∧
    lineResponse "32768".toList = .value 0x8000 ∧ lineResponse "65535".toList = .value 0xFFFF ∧
    lineResponse "  +0x1F  ".toList = .value 0x001F ∧ lineResponse "65536".toList = .outOfRange ∧
    lineResponse "-32769".toList = .outOfRange ∧ lineResponse "12a".toList = .malformed ∧
    lineResponse [] = .malformed := by decide

theorem test_out_lines :
    outLine 0x0000 = "+00000 (0x0000)".toList ∧ outLine 0x7FFF = "+32767 (0x7fff)".toList ∧
    outLine 0x8000 = "-32768 (0x8000)".toList ∧ outLine 0xFFF6 = "-00010 (0xfff6)".toList ∧
    outLine 0xABCD = "-21555 (0xabcd)".toList := by decide

/-- The statement assembles to one instruction with this word, under these labels. -/
def asmGives (table : Asm.LabelTable) (src : String) (w : InstrWord) : Bool :=
  match Asm.assembleStatement table (Asm.clean src.toList) with
  | .instr i => encode i == w
  | .defective _ _ => false

/-- The statement is rejected for just these defects, under these labels. -/
def asmRejects (table : Asm.LabelTable) (src : String) (ds : List Asm.Defect) : Bool :=
  match Asm.assembleStatement table (Asm.clean src.toList) with
  | .instr _ => false
  | .defective e es => e :: es == ds

/-- Vectors A1 to A8. -/
theorem test_assembler_accepts_1 :
    asmGives [] "ADD r3, r1, r2" 0x01840002 && asmGives [] "add R1 r2,r3   ; comment # more" 0x00880003 &&
    asmGives [] "LI r1,65530" 0x5080FFFA && asmGives [] "li r1, -1" 0x5080FFFF &&
    asmGives [] "LI r1, -32768" 0x50808000 && asmGives [] "MOV r2, r1" 0x01040000 &&
    asmGives [] "ADDI r1,r1,-1" 0x5084FFFF && asmGives [] "LD r2,0x0020" 0x61000020 = true := by decide

/-- Vectors A9 to A15. -/
theorem test_assembler_accepts_2 :
    asmGives [] "ST r31, -1" 0x7F80FFFF && asmGives [] "JMP 40000" 0xA0009C40 &&
    asmGives [("end".toList, 12)] "BEQ r0 r0 end" 0x8000000C && asmGives [] "OUT r07" 0xC3800000 &&
    asmGives [] "HALT" 0xD0000000 && asmGives [] "Halt # stop" 0xD0000000 &&
    asmGives [] "JMP -1" 0xA000FFFF = true := by decide

/-- Vectors E1 to E13, E17, E18. -/
theorem test_assembler_rejects :
    asmRejects [] "LI r1, 65536" [.badImmediate] && asmRejects [] "LI r1, -32769" [.badImmediate] &&
    asmRejects [] "LI r1, 12a" [.badImmediate] && asmRejects [] "ADD r1, r2" [.wrongArity] &&
    asmRejects [] "HALT r1" [.wrongArity] && asmRejects [] "ADD r1, r2, r32" [.badRegister] &&
    asmRejects [] "ADD r1, r2, 3" [.badRegister] && asmRejects [] "ADD r1, r2, x3" [.badRegister] &&
    asmRejects [] "NOP" [.unknownMnemonic] && asmRejects [] "SHL r1, r1, 1" [.unknownMnemonic] &&
    asmRejects [] "loop: ADD r1,r1,r2" [.unknownMnemonic] &&
    asmRejects [("buffer".toList, 3)] "LD r1, buffer" [.badImmediate] &&
    asmRejects [] "JMP nowhere" [.badImmediate] && asmRejects [] "JMP 65536" [.badImmediate] &&
    asmRejects [] "ADD r1, r2, r3, r4" [.wrongArity] = true := by decide

/-- The labels of 2.9: a, b, c, d. -/
theorem test_assembler_labels : Asm.assemble "a:\nLI r1,1\nb:\nc:\nHALT\nd:".toList =
    .ok ⟨[.addi 1 0 1, .halt],
      [("a".toList, 0), ("b".toList, 1), ("c".toList, 1), ("d".toList, 2)]⟩ := by decide

/-- Vectors E14 to E16 and the first error of R115. -/
theorem test_assembler_label_errors :
    Asm.assemble "x:\nx:".toList = .error ⟨2, [.labelDuplicate]⟩ ∧
    Asm.assemble ":".toList = .error ⟨1, [.labelEmpty]⟩ ∧
    Asm.assemble "a b:".toList = .error ⟨1, [.labelWhitespace]⟩ ∧
    Asm.assemble "FOO\nx:\n# only a comment\n\nx: ; note".toList = .error ⟨5, [.labelDuplicate]⟩ := by
  decide

/-- Program P8, by the assembler and the driver. -/
theorem test_jump_out_of_program : (match Asm.assemble "LI r1,1\nJMP 40000\nOUT r1".toList with
    | .ok a =>
      match boot a.words [] false with
      | some s =>
        match runFor 10 s with
        | .returned 2 t => t.pc == 40000 && t.status == .outOfProgram && t.output == []
        | _ => false
      | none => false
    | .error _ => false) = true := by decide

theorem test_print : Asm.printInstr (.beq 1 31 65535) = "BEQ r1, r31, 65535".toList ∧
    Asm.printInstr .halt = "HALT".toList := by decide

/-! ### Witnesses: for each statement with hypotheses, inputs that meet them, clause by clause -/

theorem witness_EncodeThenDecodeIsIdentity :
    Instr.wf (.ld 31 0) = true ∧ Instr.wf (.ld 0 65535) = true ∧ Instr.wf (.beq 31 31 65535) = true := by
  decide

theorem witness_DecodeThenEncodeIsIdentity : decode 0x7F80FFFF = .legal (.st 31 65535) := by decide

theorem witness_OpcodeMapRowMatchesExactly :
    (.jmp, 0xA0000000, 0xFFFF0000) ∈ opcodeMap ∧ (0xA000FFFF : InstrWord) &&& 0xFFFF0000 = 0xA0000000 := by
  decide

/-- The lowest and the highest must-be-zero bit of formats R and J. -/
theorem witness_NonzeroSpareBitIsIllegal :
    ((0x00000020 : InstrWord).extractLsb' 28 4 = Opcode.add.number ∧
      Format.r.mustBeZero.getLsbD 5 = true ∧ (0x00000020 : InstrWord).getLsbD 5 = true ∧
      (mk [0x00000020] [] []).status = .running ∧ (mk [0x00000020] [] []).fetch = some 0x00000020) ∧
    (0xA8000000 : InstrWord).extractLsb' 28 4 = Opcode.jmp.number ∧
      Format.j.mustBeZero.getLsbD 27 = true ∧ (0xA8000000 : InstrWord).getLsbD 27 = true := by
  decide

theorem witness_UnassignedOpcodeIsIllegal :
    0xE0000000 ≤ (0xE0000000 : InstrWord).toNat ∧ 0xE0000000 ≤ (0xFFFFFFFF : InstrWord).toNat := by
  decide

/-- Stopped; outside the Program by one; an Illegal word; an IN that waits. -/
theorem witness_StepRunsTheDecodedInstruction :
    { State.reset with status := .halted }.status ≠ .running ∧
    ((mkAt 1 [0] []).status = .running ∧ (mkAt 1 [0] []).imem.length ≤ (mkAt 1 [0] []).pc.toNat) ∧
    ((mk [0xE0000000] [] []).imem[(mk [0xE0000000] [] []).pc.toNat]? = some 0xE0000000 ∧
      decode 0xE0000000 = .illegal .unassignedOpcode) ∧
    (mk [0xB0800000] [] []).imem[(mk [0xB0800000] [] []).pc.toNat]? = some 0xB0800000 ∧
    decode 0xB0800000 = .legal (.inp 1) ∧
    waits (exec (.inp 1) { mk [0xB0800000] [] [] with pc := 0 + 1 }) = true := by decide

/-- The clause of a completed execution: the last index of a Program of two. -/
theorem witness_StepRunsTheDecodedInstruction_next :
    (mkAt 1 [0, 0xD0000000] []).imem[(mkAt 1 [0, 0xD0000000] []).pc.toNat]? = some 0xD0000000 ∧
    decode 0xD0000000 = .legal .halt ∧
    ∃ t, exec .halt { mkAt 1 [0, 0xD0000000] [] with pc := 1 + 1 } = .next t ∧
      (t.status == .halted) = true := ⟨by decide, by decide, exists_next (by decide)⟩

theorem witness_IllegalWordRaisesUnknownOpcode :
    State.ExecutesIllegal (mk [0x00000020] [] []) ∧ Instr.wf (.st 0 65535) = true :=
  ⟨⟨by decide, 0x00000020, by decide, by decide⟩, by decide⟩

theorem witness_StoppedMachineChangesNothing :
    State.Stopped { State.reset with status := .halted } ∧
    State.Stopped { State.reset with status := .outOfProgram } ∧
    State.Stopped { State.reset with status := .runtimeFault .inMalformed } :=
  ⟨by unfold State.Stopped; decide, by unfold State.Stopped; decide, by unfold State.Stopped; decide⟩

/-- One change of the status of each kind. -/
theorem witness_StatusChangesOnlyAsListed :
    (∃ t, step (mk [0xD0000000] [] []) = .next t ∧ (t.status == .halted) = true) ∧
    (∃ t, step (mk [] [] []) = .next t ∧ (t.status == .outOfProgram) = true) ∧
    (∃ t, step (mk [0xFFFFFFFF] [] []) = .next t ∧
      (t.status == .runtimeFault .unknownOpcode) = true) ∧
    (∃ t, step (mk [0xB0800000] [.endOfInput] []) = .next t ∧
      (t.status == .runtimeFault .inEndOfInput) = true) ∧
    (∃ t, step (mk [0xB0800000] [.malformed] []) = .next t ∧
      (t.status == .runtimeFault .inMalformed) = true) ∧
    ∃ t, step (mk [0xB0800000] [.outOfRange] []) = .next t ∧
      (t.status == .runtimeFault .inOutOfRange) = true :=
  ⟨exists_next (by decide), exists_next (by decide), exists_next (by decide), exists_next (by decide),
    exists_next (by decide), exists_next (by decide)⟩

/-- A JMP, a BEQ whose registers are equal, a BNE whose registers differ, an ADD, and no fetch. -/
theorem witness_PcAfterStep :
    (∃ t, step (mk [0xA000FFFF] [] []) = .next t ∧ (t.pc == 65535) = true) ∧
    (∃ t, step (mk [0x80080000] [] []) = .next t ∧ (t.pc == 0) = true) ∧
    (∃ t, step (mk [0x90080000] [] [(2, 1)]) = .next t ∧ (t.pc == 0) = true) ∧
    (∃ t, step (mk [0x00000000] [] []) = .next t ∧ (t.pc == 1) = true) ∧
    (mk [0xA000FFFF] [] []).status = .running ∧ (mk [0xA000FFFF] [] []).fetch = some 0xA000FFFF ∧
    (∃ t, step State.reset = .next t ∧ (t.pc == 0) = true) ∧ State.reset.fetch = none :=
  ⟨exists_next (by decide), exists_next (by decide), exists_next (by decide), exists_next (by decide),
    by decide, by decide, exists_next (by decide), by decide⟩

/-- A state in the middle of a traced run: one instruction done, a store next. -/
def midRun : State :=
  { mkAt 1 [0x50800001, 0x70800020] [(1, 1)] with
    traceEn := true
    trace := [⟨0, .addi 1 0 1, [(1, 1)]⟩]
    count := 1 }

theorem midRun_inv : midRun.Inv :=
  ⟨by decide, by decide, by decide, by decide, by decide, by decide⟩

theorem midRun_step : ∃ t, step midRun = .next t ∧
    (t.dmem == [(32, 1)] && t.count == 2 && t.trace.length == 2) = true := exists_next (by decide)

theorem witness_StepKeepsTheInvariant : midRun.Inv ∧ ∃ t, step midRun = .next t ∧
    (t.dmem == [(32, 1)] && t.count == 2 && t.trace.length == 2) = true := ⟨midRun_inv, midRun_step⟩

/-- A Program of the greatest length, and one longer. -/
theorem witness_LaunchMeetsTheInvariants :
    (Launch.mk (List.replicate 65535 0) [] true [(0, 5), (31, 7)] [(65535, 9)]).prog.length ≤ 65535 ∧
    65535 < (Launch.mk (List.replicate 65536 0) [] false [] []).prog.length := by
  constructor
  · exact (List.length_replicate (n := 65535) (a := (0 : InstrWord))).le
  · rw [show (Launch.mk (List.replicate 65536 0) [] false [] []).prog.length = 65536 from
      List.length_replicate]
    omega

theorem witness_StepKeepsStopExplained : State.Inv (mk [0xE0000000] [] []) ∧
    State.StopExplained (mk [0xE0000000] [] []) ∧
    ∃ t, step (mk [0xE0000000] [] []) = .next t ∧ (t.status == .runtimeFault .unknownOpcode) = true :=
  ⟨⟨by decide, by decide, by decide, by decide, by decide, by decide⟩, trivial, exists_next (by decide)⟩

theorem witness_StepKeepsTraceSound : midRun.TraceSound ∧ ∃ t, step midRun = .next t ∧
    (t.dmem == [(32, 1)] && t.count == 2 && t.trace.length == 2) = true := by
  refine ⟨?_, midRun_step⟩
  intro r hr
  obtain rfl : r = ⟨0, .addi 1 0 1, [(1, 1)]⟩ := List.mem_singleton.1 hr
  exact ⟨⟨0x50800001, by decide, by decide⟩, by decide, by simp⟩

/-- A run of two steps that goes on and one that ends in a wait, each traced and untraced. -/
theorem witness_TraceNeverAffectsTheMachine :
    State.SameButTrace (mk [0x50800001, 0xD0000000] [] [])
      { mk [0x50800001, 0xD0000000] [] [] with traceEn := true } ∧
    (∃ t, Sys2Proof.core.run 2 (mk [0x50800001, 0xD0000000] [] []) = .next t ∧
      (t.status == .halted) = true) ∧
    Sys2Proof.core.run 2 (mk [0x50800001, 0xB0800000] [] []) = .fault .awaitingInput :=
  ⟨rfl, exists_next (by decide), fault_of_waits (by decide)⟩

theorem witness_StepWaitsOnlyForInput : State.WaitsForInput (mk [0xB0800000] [] []) :=
  ⟨by decide, by decide, 0xB0800000, 1, by decide, by decide⟩

/-- A run of two steps; an execution that answers; one that waits. -/
theorem witness_ProgramIsReadOnly :
    (∃ t, Sys2Proof.core.run 2 (mk [0x50800001, 0x70800020] [] []) = .next t ∧
      (t.memRead 32 == 1) = true) ∧
    (∃ t, exec (.st 1 32) (mk [] [] [(1, 1)]) = .next t ∧ (t.memRead 32 == 1) = true) ∧
    exec (.inp 1) (mk [] [] []) = .fault .awaitingInput :=
  ⟨exists_next (by decide), exists_next (by decide), fault_of_waits (by decide)⟩

theorem witness_OnlyLdAndStReachDataMemory :
    (∃ t, exec (.ld 1 65535) State.reset = .next t ∧ (t.dmem == []) = true) ∧
    Instr.opcode (.ld 1 65535) ≠ .st ∧
    (∃ t, exec (.add 1 1 1) State.reset = .next t ∧ (t.dmem == []) = true) ∧
    Instr.opcode (.add 1 1 1) ≠ .ld ∧ Instr.opcode (.add 1 1 1) ≠ .st :=
  ⟨exists_next (by decide), by decide, exists_next (by decide), by decide, by decide⟩

theorem witness_OnlyInAndOutTouchThePorts :
    (∃ t, step (mk [0xB0800000] [.value 5] []) = .next t ∧ (t.input == []) = true) ∧
    ∃ t, step (mk [0xC0800000] [] [(1, 5)]) = .next t ∧ (t.output == [5]) = true :=
  ⟨exists_next (by decide), exists_next (by decide)⟩

/-- Two register files that agree on the sources of an instruction and differ elsewhere; an execution
that answers, one that faults and one that waits. -/
theorem witness_ExecUsesOnlyTheListedRegisters :
    (∀ r ∈ Instr.sources (.add 3 1 2),
      State.readReg { mk [] [] [(1, 4), (2, 5)] with
        regs := initRegs State.reset.regs [(1, 4), (2, 5), (3, 9), (31, 8)] } r
        = (mk [] [] [(1, 4), (2, 5)]).readReg r) ∧
    (∃ t, exec (.add 3 1 2) (mk [] [] [(1, 4), (2, 5)]) = .next t ∧ (t.readReg 3 == 9) = true) ∧
    (∃ t, exec (.ld 3 (-1)) (mk [] [] []) = .next t ∧
      (t.status == .runtimeFault .memBounds) = true) ∧
    exec (.inp 3) (mk [] [] []) = .fault .awaitingInput :=
  ⟨by decide, exists_next (by decide), exists_next (by decide), fault_of_waits (by decide)⟩

theorem witness_WriteToRegisterZeroIsDiscarded :
    Instr.dest? (.inp 7) ≠ none ∧
    (∃ t, exec (.inp 7) (mk [] [.value 77] []) = .next t ∧ (t.readReg 7 == 77) = true) ∧
    exec (.inp 7) (mk [] [] []) = .fault .awaitingInput :=
  ⟨by decide, exists_next (by decide), fault_of_waits (by decide)⟩

/-- The lowest and the highest bit position. -/
theorem witness_AndWritesBitByBit : 0 < 16 ∧ 15 < 16 := by decide

/-- The lowest and the highest bit position. -/
theorem witness_OrWritesBitByBit : 0 < 16 ∧ 15 < 16 := by decide

/-- The lowest and the highest bit position. -/
theorem witness_XorWritesBitByBit : 0 < 16 ∧ 15 < 16 := by decide

theorem witness_LdReadsTheWordAtTheAddress :
    ((-1 : Int) < 0 ∨ 65535 < (-1 : Int)) ∧ ((65536 : Int) < 0 ∨ 65535 < (65536 : Int)) := by decide

/-- A canonical memory, the lowest and highest address in range, the nearest ones outside. -/
theorem witness_StStoresTheWordAtTheAddress :
    State.reset.dmem.wf = true ∧ effectiveAddr 0 = some 0 ∧ effectiveAddr 65535 = some 65535 ∧
    ((-1 : Int) < 0 ∨ 65535 < (-1 : Int)) ∧ ((65536 : Int) < 0 ∨ 65535 < (65536 : Int)) := by decide

/-- A store, one step that stores elsewhere, a load. -/
def storeLoad : State := mk [0x70800020, 0x70000021, 0x61000020] [] [(1, 60)]

/-- `storeLoad` after its store. -/
def storeLoad₁ : State := { storeLoad with pc := 1, dmem := [(32, 60)], count := 1 }

/-- `storeLoad` before its load. -/
def storeLoad₂ : State := { storeLoad with pc := 2, dmem := [(32, 60)], count := 2 }

theorem eq_next_of {o : Host.Outcome State Fault Refusal} {t : State}
    (h : nextWith o (fun u => u == t) = true) : o = .next t := by
  obtain ⟨u, hu, e⟩ := exists_next h
  rw [hu, eq_of_beq e]

theorem witness_LoadReturnsTheLatestStore :
    storeLoad.Inv ∧ storeLoad.Executes (.st 1 ((32 : BitVec 16).toNat : Int)) ∧
    step storeLoad = .next storeLoad₁ ∧ Sys2Proof.core.run 1 storeLoad₁ = .next storeLoad₂ ∧
    (∀ m v q, m < 1 → Sys2Proof.core.run m storeLoad₁ = .next v →
      ¬ v.Executes (.st q ((32 : BitVec 16).toNat : Int))) ∧
    storeLoad₂.Executes (.ld 2 ((32 : BitVec 16).toNat : Int)) ∧
    ∃ u, step storeLoad₂ = .next u ∧ (u.readReg 2 == 60) = true := by
  refine ⟨⟨by decide, by decide, by decide, by decide, by decide, by decide⟩,
    ⟨by decide, 0x70800020, by decide, by decide⟩, eq_next_of (by decide), eq_next_of (by decide), ?_,
    ⟨by decide, 0x61000020, by decide, by decide⟩, exists_next (by decide)⟩
  intro m v q hm hv
  obtain rfl : m = 0 := by omega
  obtain rfl : storeLoad₁ = v := by injection hv
  rintro ⟨-, w, hw, hd⟩
  obtain rfl : (0x70000021 : InstrWord) = w := Option.some_inj.1 hw
  rw [show decode 0x70000021 = .legal (.st 0 33) by decide] at hd
  injection hd with hd
  injection hd with _ hd
  exact absurd hd (by decide)

theorem witness_EqualReadsMeanEqualMemories :
    Memory.wf [(0, 1), (65535, 2)] = true ∧
    ∀ a, a < 65536 → Memory.read [(0, 1), (65535, 2)] a = Memory.read [(0, 1), (65535, 2)] a :=
  ⟨by decide, fun _ _ => rfl⟩

/-- One input for each clause. -/
theorem witness_InTakesOneAnswer :
    (mk [] [.value 0xFFFF] []).input = [.value 0xFFFF] ∧ (mk [] [.endOfInput] []).input = [.endOfInput] ∧
    (mk [] [.malformed] []).input = [.malformed] ∧ (mk [] [.outOfRange] []).input = [.outOfRange] := by decide

theorem witness_HaltStopsTheMachine : State.Executes (mk [0xD0000000] [] []) .halt :=
  ⟨by decide, 0xD0000000, by decide, by decide⟩

/-- Every cause an encoded instruction can raise. -/
theorem witness_FaultLeavesStateAsLastMutated :
    (mk [0xB0800000] [.malformed] []).status = .running ∧
    (∃ t, step (mk [0xB0800000] [.malformed] []) = .next t ∧
      (t.status == .runtimeFault .inMalformed) = true) ∧
    (∃ t, step (mk [0xB0800000] [.outOfRange] []) = .next t ∧
      (t.status == .runtimeFault .inOutOfRange) = true) ∧
    (∃ t, step (mk [0xB0800000] [.endOfInput] []) = .next t ∧
      (t.status == .runtimeFault .inEndOfInput) = true) ∧
    ∃ t, step (mk [0xE0000000] [] []) = .next t ∧
      (t.status == .runtimeFault .unknownOpcode) = true :=
  ⟨by decide, exists_next (by decide), exists_next (by decide), exists_next (by decide),
    exists_next (by decide)⟩

theorem witness_ResetEventInheritsNothing : (mk (List.replicate 65535 0) [] []).imem.length ≤ 65535 :=
  (List.length_replicate (n := 65535) (a := (0 : InstrWord))).le

/-- Stopped, outside the Program, an Illegal word, an execution, and a `run()` that returns. -/
theorem witness_CountIsOfCompletedInstructions :
    (∃ t, step (mk [0xD0000000] [] []) = .next t ∧ (t.count == 1) = true) ∧
    State.Executes (mk [0xD0000000] [] []) .halt ∧
    (∃ t, step (mk [0xE0000000] [] []) = .next t ∧ (t.count == 0) = true) ∧
    State.ExecutesIllegal (mk [0xE0000000] [] []) ∧
    (∃ t, step State.reset = .next t ∧ (t.count == 0) = true) ∧ State.reset.fetch = none ∧
    runFor 1 (mk [0xD0000000] [] []) =
      .returned 1 { mk [0xD0000000] [] [] with pc := 1, status := .halted, count := 1 } :=
  ⟨exists_next (by decide), ⟨by decide, 0xD0000000, by decide, by decide⟩, exists_next (by decide),
    ⟨by decide, 0xE0000000, by decide, by decide⟩, exists_next (by decide), by decide, by decide⟩

/-- A traced execution that completes, one that faults, a machine with tracing off, one outside its
Program. -/
theorem witness_TraceRecordPerCompletedInstruction :
    midRun.traceEn = true ∧ midRun.Executes (.st 1 32) ∧
    (∃ t, step midRun = .next t ∧ (t.status.isFault == false) = true) ∧
    (∃ t, step { mk [0xE0000000] [] [] with traceEn := true } = .next t ∧
      (t.status.isFault == true) = true) ∧
    (mk [] [] []).traceEn = false ∧ (mk [] [] []).fetch = none :=
  ⟨by decide, ⟨by decide, 0x70800020, by decide, by decide⟩, exists_next (by decide),
    exists_next (by decide), by decide, by decide⟩

/-- A return from Halted, one at the ceiling, a fault, a wait. -/
theorem witness_RunStopsWhereTheDriverSays :
    runFor 5 (mk [0xD0000000] [] []) =
      .returned 1 { mk [0xD0000000] [] [] with pc := 1, status := .halted, count := 1 } ∧
    runFor 0 (mk [] [] []) = .returned 0 (mk [] [] []) ∧
    runFor 1 (mk [0xE0000000] [] []) = .faulted .unknownOpcode
      { mk [0xE0000000] [] [] with pc := 1, status := .runtimeFault .unknownOpcode } ∧
    runFor 1 (mk [0xB0800000] [] []) = .waiting (mk [0xB0800000] [] []) := by decide

theorem witness_SelfJumpRunsToTheCeiling :
    State.Executes (mkAt 2 [0, 0, 0xA0000002] []) (.jmp (mkAt 2 [0, 0, 0xA0000002] []).pc) ∧
    (mkAt 2 [0, 0, 0xA0000002] []).traceEn = false :=
  ⟨⟨by decide, 0xA0000002, by decide, by decide⟩, by decide⟩

/-- Lines on the port; a literal at the edge of the range, one beyond it; no literal. -/
theorem witness_InPortAnswersAsTheAdaptor :
    (mk [] (portResponses ["7".toList]) []).input = portResponses ["7".toList] ∧
    IsLiteral "-32768".toList (-32768) ∧ IsLiteral "65536".toList 65536 := by
  refine ⟨by decide, ⟨[], ['-'], [], "32768".toList, [], 32768, by decide, by simp, ?_, .inl ⟨rfl, ?_⟩⟩,
    ⟨[], [], [], "65536".toList, [], 65536, by decide, by simp, .inl ⟨rfl, rfl⟩, .inl ⟨rfl, ?_⟩⟩⟩
  · exact .inr (.inr ⟨rfl, rfl⟩)
  · exact ((((DigitsValue.one (c := '3') (d := 3) (by decide)).snoc (c := '2') (d := 2) (by decide)).snoc
      (c := '7') (d := 7) (by decide)).snoc (c := '6') (d := 6) (by decide)).snoc (c := '8') (d := 8)
      (by decide)
  · exact ((((DigitsValue.one (c := '6') (d := 6) (by decide)).snoc (c := '5') (d := 5) (by decide)).snoc
      (c := '5') (d := 5) (by decide)).snoc (c := '3') (d := 3) (by decide)).snoc (c := '6') (d := 6)
      (by decide)

/-- The empty line is no literal: a literal has a digit. -/
theorem witness_InPortAnswersAsTheAdaptor_malformed : ¬ ∃ n, IsLiteral [] n := by
  rintro ⟨n, before, sign, pre, ds, after, m, h, -, -, hd⟩
  have hds : ds = [] := by
    have := congrArg List.length h
    simp only [List.length_nil, List.length_append] at this
    exact List.length_eq_zero_iff.1 (by omega)
  subst hds
  have hempty : ∀ (base : Nat) (table : List (Char × Nat)), ¬ DigitsValue base table [] m := by
    intro base table hv
    generalize he : ([] : Text) = t at hv
    cases hv <;> simp at he
  rcases hd with ⟨-, hd⟩ | ⟨-, hd⟩
  · exact hempty _ _ hd
  · exact hempty _ _ hd

theorem witness_AssembledProgramFollowsTheStatements :
    Asm.assemble "x:\nADD r3, r1, r2\nJMP x".toList = .ok ⟨[.add 3 1 2, .jmp 0], [("x".toList, 0)]⟩ := by
  decide

/-- A label before a statement, and one after the last. -/
theorem witness_LabelsAreBoundToTheNextInstruction :
    Asm.pass1 [] 0 [⟨1, "a:".toList⟩, ⟨2, "HALT".toList⟩, ⟨3, "b:".toList⟩]
      = .ok [("a".toList, 0), ("b".toList, 1)] ∧
    Asm.isLabelLine "a:".toList = true ∧ Asm.isLabelLine "b:".toList = true ∧
    Asm.isLabelLine "HALT".toList = false := by decide

theorem witness_PseudoInstructionsExpand :
    (Asm.tokens "LI r1, -1".toList = ["LI".toList, "r1".toList, "-1".toList] ∧
      Asm.mnemonicOf "LI".toList = some .li ∧
      Asm.tokens "ADDI r1, r0, -1".toList = ["ADDI".toList, "r1".toList, ['r', '0'], "-1".toList] ∧
      Asm.mnemonicOf "ADDI".toList = some (.op .addi)) ∧
    Asm.tokens "mov r2,r1".toList = ["mov".toList, "r2".toList, "r1".toList] ∧
    Asm.mnemonicOf "mov".toList = some .mov ∧
    Asm.tokens "ADD r2 r1 r0".toList = ["ADD".toList, "r2".toList, "r1".toList, ['r', '0']] ∧
    Asm.mnemonicOf "ADD".toList = some (.op .add) := by decide

theorem witness_PrintedFormAssemblesBack : Instr.wf (.st 31 65535) = true ∧ Instr.wf (.ld 0 0) = true := by
  decide

/-- A table without the name, and one whose second entry has it. -/
theorem witness_ImmediatesAndTargetsAreRead :
    (∀ n, ("x".toList, n) ∉ ([] : Asm.LabelTable)) ∧
    ([("y".toList, 1), ("x".toList, 65535)] : Asm.LabelTable)
      = [("y".toList, 1)] ++ ("x".toList, 65535) :: [] ∧
    (∀ m, ("x".toList, m) ∉ [("y".toList, 1)]) ∧ IsLiteral "5".toList 5 :=
  ⟨by simp, rfl, by simp,
    [], [], [], "5".toList, [], 5, rfl, by simp, .inl ⟨rfl, rfl⟩, .inl ⟨rfl, .one (by decide)⟩⟩

/-- A label error on line 3 before a statement error on line 1, and a statement error on line 2. -/
theorem witness_AssemblyErrorIsTheFirst :
    Asm.assemble "NOP\nx:\nx:".toList = .error ⟨3, [.labelDuplicate]⟩ ∧
    Asm.assemble "HALT\nADD r1, r2\nNOP".toList = .error ⟨2, [.wrongArity]⟩ := by decide

/-- A failed assembly; a successful one, whose run succeeds with a line and faults without. -/
theorem witness_ProcessEndsByItsConditions :
    Asm.assemble "NOP".toList = .error ⟨1, [.unknownMnemonic]⟩ ∧
    Asm.assemble "IN r1".toList = .ok ⟨[.inp 1], []⟩ ∧
    process (some "IN r1".toList) false ["7".toList] 10 = some .success ∧
    process (some "IN r1".toList) true [] 10 = some .runtimeFailure := by decide

end Sys2Proof.Tests
end

section
/-! PROOFS. The statements about the state, 10_state.md: the cycle (R29, R31, R37), the registers an
instruction reads and writes (R25), and writes to register 0 (R23). -/

namespace Sys2Proof

/-- Giving an instruction the destination it has changes nothing; one without a destination keeps
its form whatever register it is given. -/
theorem Instr.withDest_dest (i : Instr) : i.withDest (i.dest?.getD 0) = i := by
  cases i <;> rfl

end Sys2Proof

namespace Sys2Proof.Machine

/-! ### The instruction cycle -/

/-- The end of a step, by whether the execution raised a fault. -/
theorem State.retire_eq_ite (s : State) (i : Instr) (t : State) :
    s.retire i t = if t.status.isFault then t else { t with
      count := t.count + 1
      trace := if t.traceEn then t.trace ++ [⟨s.pc, i, changedRegs s t⟩] else t.trace } := by
  cases h : t.status.isFault <;> simp [State.retire, h]

/-- Settles O7: the clauses are the model's own equations of a step, one per branch of the cycle. -/
theorem stepRunsTheDecodedInstruction : Obligations.StepRunsTheDecodedInstruction := by
  intro s
  refine ⟨step_of_stopped, fun h hout => ?_, fun w why h hw hd => step_of_illegal h hw hd,
    fun w i h hw hd => ⟨fun f hf => ?_, fun t ht => ?_⟩⟩
  · rw [step_of_running h, fetch_eq_none.2 hout]
    rfl
  · rw [step_of_legal h hw hd, show exec i s.advance = .fault f from hf]
    rfl
  · rw [step_of_legal h hw hd, show exec i s.advance = .next t from ht, ← State.retire_eq_ite]
    rfl

/-- Settles O10, by the effects of a step: an executed instruction was decoded, so it is well-formed
and its execution changes the status only as `exec_status` says. -/
theorem statusChangesOnlyAsListed : Obligations.StatusChangesOnlyAsListed := by
  refine ⟨rfl, fun s t hstep hne => ?_⟩
  cases step_effect hstep with
  | stopped => exact absurd rfl hne
  | outOfProgram h hw => exact ⟨h, .inr (.inl ⟨rfl, fetch_eq_none.1 hw⟩)⟩
  | illegal w why h hw hd =>
    exact ⟨h, .inr (.inr (.inl ⟨rfl, h, w, hw, toOption_eq_none.2 ⟨why, hd⟩⟩))⟩
  | executed w i u h hw hd hu =>
    refine ⟨h, ?_⟩
    rcases exec_status hu (wf_of_decode hd) with hsame | ⟨rfl, hhalt⟩ | ⟨rd, rfl, hcause⟩
    · exact absurd hsame hne
    · exact .inl ⟨hhalt, h, w, hw, hd⟩
    · exact .inr (.inr (.inr ⟨rd, ⟨h, w, hw, hd⟩, hcause⟩))

/-- Settles O11, by the effects of a step and, for an executed instruction, of its execution in the
state with `pc` advanced. -/
theorem pcAfterStep : Obligations.PcAfterStep := by
  intro s t hrun hstep
  cases step_effect hstep with
  | stopped h => exact absurd hrun h
  | outOfProgram _ hw =>
    exact ⟨fun _ => rfl, fun w hw' => nomatch hw.symm.trans hw'⟩
  | illegal w why _ hw hd =>
    refine ⟨fun hnone => (nomatch hw.symm.trans hnone), fun w' hw' => ?_⟩
    obtain rfl : w = w' := Option.some.inj (hw.symm.trans hw')
    rw [hd]
    rfl
  | executed w i u _ hw hd hu =>
    refine ⟨fun hnone => (nomatch hw.symm.trans hnone), fun w' hw' => ?_⟩
    obtain rfl : w = w' := Option.some.inj (hw.symm.trans hw')
    rw [hd]
    cases exec_effect hu with
    | beq | bne | jmp => rfl
    | add | sub | and | or | xor | addi | load | boundsLd | store | boundsSt | value | endOfInput
    | malformed | outOfRange | output | halt => rfl

/-! ### The registers an instruction reads and writes -/

/-- The register file `f` holds, in the registers that `i` reads, what `s` holds there. -/
def SourcesAgree (i : Instr) (s : State) (f : RegFile) : Prop :=
  ∀ r ∈ i.sources, f.read r = s.readReg r

theorem sourcesAgree_self (i : Instr) (s : State) : SourcesAgree i s s.regs := fun _ _ => rfl

/-- What the execution of `i` that led from `s` to `t` has to do with registers. Either it wrote a
Word `v` to its destination, `u` being the rest of its effect, or it wrote no register. In both cases
it does the same with any register as its destination and any register file that agrees on its
sources. -/
inductive RegEffect (s : State) (i : Instr) (t : State) : Prop where
  | write (rd : RegIdx) (u : State) (v : Word) (hdest : i.dest? = some rd) (hregs : u.regs = s.regs)
      (ht : t = u.writeReg rd v)
      (halike : ∀ r f, SourcesAgree i s f →
        exec (i.withDest r) { s with regs := f } = .next (State.writeReg { u with regs := f } r v))
  | keep (hwhy : t.status.isFault = true ∨ i.dest? = none) (hregs : t.regs = s.regs)
      (halike : ∀ r f, SourcesAgree i s f →
        exec (i.withDest r) { s with regs := f } = .next { t with regs := f })

/-- The register effect shared by the instructions that combine two source registers. -/
theorem RegEffect.of_aluRegReg {i : Instr} {g : Word → Word → Word} {rd rs1 rs2 : RegIdx}
    (s : State) (hdest : i.dest? = some rd) (hsrc : i.sources = [rs1, rs2])
    (hexec : ∀ r u, exec (i.withDest r) u = .next (aluRegReg g r rs1 rs2 u)) :
    RegEffect s i (s.writeReg rd (g (s.readReg rs1) (s.readReg rs2))) := by
  refine .write rd s _ hdest rfl rfl fun r f hf => ?_
  rw [hexec, ← hf rs1 (by simp [hsrc]), ← hf rs2 (by simp [hsrc])]
  rfl

/-- Every execution that answers a next state has a register effect. -/
theorem exec_regEffect {i : Instr} {s t : State} (h : exec i s = .next t) : RegEffect s i t := by
  cases exec_effect h with
  | add | sub | and | or | xor => exact .of_aluRegReg s rfl rfl fun _ _ => rfl
  | addi rd rs1 imm =>
    refine .write rd s _ rfl rfl rfl fun r f hf => ?_
    rw [← hf rs1 (by simp [Instr.sources])]
    rfl
  | load rd addr a ha =>
    exact .write rd s _ rfl rfl rfl fun r f _ => exec_of_effect (.load r addr a ha)
  | value rd v rest hin =>
    exact .write rd { s with input := rest } v rfl rfl rfl fun r f _ =>
      exec_of_effect (.value r v rest hin)
  | boundsLd rd addr ha =>
    exact .keep (.inl rfl) rfl fun r f _ => exec_of_effect (.boundsLd r addr ha)
  | boundsSt rs addr ha =>
    exact .keep (.inl rfl) rfl fun r f _ => exec_of_effect (.boundsSt rs addr ha)
  | endOfInput rd rest hin =>
    exact .keep (.inl rfl) rfl fun r f _ => exec_of_effect (.endOfInput r rest hin)
  | malformed rd rest hin =>
    exact .keep (.inl rfl) rfl fun r f _ => exec_of_effect (.malformed r rest hin)
  | outOfRange rd rest hin =>
    exact .keep (.inl rfl) rfl fun r f _ => exec_of_effect (.outOfRange r rest hin)
  | store rs addr a ha =>
    refine .keep (.inr rfl) rfl fun r f hf => ?_
    rw [← hf rs (by simp [Instr.sources])]
    exact exec_of_effect (.store rs addr a ha)
  | beq rs1 rs2 target =>
    refine .keep (.inr rfl) rfl fun r f hf => ?_
    rw [← hf rs1 (by simp [Instr.sources]), ← hf rs2 (by simp [Instr.sources])]
    exact exec_of_effect (.beq rs1 rs2 target)
  | bne rs1 rs2 target =>
    refine .keep (.inr rfl) rfl fun r f hf => ?_
    rw [← hf rs1 (by simp [Instr.sources]), ← hf rs2 (by simp [Instr.sources])]
    exact exec_of_effect (.bne rs1 rs2 target)
  | output rs =>
    refine .keep (.inr rfl) rfl fun r f hf => ?_
    rw [← hf rs (by simp [Instr.sources])]
    rfl
  | jmp | halt => exact .keep (.inr rfl) rfl fun _ _ _ => rfl

/-- An execution leaves every register but its destination as it was. -/
theorem exec_readReg_of_ne_dest {i : Instr} {s t : State} (h : exec i s = .next t) {r : RegIdx}
    (hr : some r ≠ i.dest?) : t.readReg r = s.readReg r := by
  cases exec_regEffect h with
  | write rd u v hdest hregs ht =>
    have hne : r ≠ rd := fun e => hr (by rw [hdest, e])
    rw [ht, State.readReg_writeReg_ne u hne, State.readReg_eq, hregs, State.readReg_eq]
  | keep _ hregs => rw [State.readReg_eq, hregs, State.readReg_eq]

/-- An execution that waits is an IN without an answer, and any IN in a state without an answer waits
in the same way. -/
theorem exec_withDest_of_fault {i : Instr} {s : State} {e : Fault} (h : exec i s = .fault e)
    (r : RegIdx) (f : RegFile) : exec (i.withDest r) { s with regs := f } = .fault e := by
  rcases exec_cases i s with ⟨t, ht, -⟩ | ⟨rd, rfl, hin, -⟩
  · cases ht.symm.trans h
  · cases e
    simp only [Instr.withDest, exec, execInp, State.inPort, hin]

/-- After writes of one Word to one register, two register files read alike there. -/
theorem RegFile.read_write_congr (f g : RegFile) (r : RegIdx) (v : Word) :
    (f.write r v).read r = (g.write r v).read r := by
  by_cases hr : r = 0
  · subst hr
    rfl
  · rw [RegFile.read_write_self f hr, RegFile.read_write_self g hr]

/-- Settles O22: by its register effect the execution does the same from every register file that
agrees on its sources; the frame is that of both executions. -/
theorem execUsesOnlyTheListedRegisters : Obligations.ExecUsesOnlyTheListedRegisters := by
  intro i s f hf
  refine ⟨fun e he => ?_, fun t ht => ⟨fun r hr => exec_readReg_of_ne_dest ht hr, ?_⟩⟩
  · simpa only [Instr.withDest_dest] using exec_withDest_of_fault he (i.dest?.getD 0) f
  · cases exec_regEffect ht with
    | write rd u v hdest hregs htu halike =>
      have ht' := halike (i.dest?.getD 0) f hf
      rw [Instr.withDest_dest, hdest, Option.getD_some] at ht'
      refine ⟨_, ht', by rw [htu]; rfl, fun r hr => exec_readReg_of_ne_dest ht' hr,
        .inl fun r hr => ?_⟩
      obtain rfl : r = rd := Option.some.inj (hr.trans hdest)
      rw [htu]
      exact RegFile.read_write_congr ..
    | keep hwhy hregs halike =>
      have ht' := halike (i.dest?.getD 0) f hf
      rw [Instr.withDest_dest] at ht'
      refine ⟨_, ht', rfl, fun r hr => exec_readReg_of_ne_dest ht' hr, ?_⟩
      rcases hwhy with hfault | hnone
      · exact .inr ⟨hfault, hregs, rfl⟩
      · exact .inl fun r hr => nomatch hr.trans hnone

/-- Settles O23: by its register effect the execution does the same with destination register 0, where
the write is discarded. -/
theorem writeToRegisterZeroIsDiscarded : Obligations.WriteToRegisterZeroIsDiscarded := by
  refine fun i s _ => ⟨fun t ht => ⟨?_, rfl⟩, fun e he => exec_withDest_of_fault he 0 s.regs⟩
  cases exec_regEffect ht with
  | write rd u v _ _ htu halike =>
    rw [htu]
    exact halike 0 s.regs (sourcesAgree_self i s)
  | keep _ _ halike => exact halike 0 s.regs (sourcesAgree_self i s)

end Sys2Proof.Machine
end

section
/-! PROOFS. The statements about the address spaces, 20_memory.md: the Program is read by fetch alone
and written by nothing (R55). -/

namespace Sys2Proof.Machine

/-- No step changes the Program. -/
theorem step_imem {s t : State} (h : step s = .next t) : t.imem = s.imem := by
  cases step_effect h with
  | stopped | outOfProgram | illegal => rfl
  | executed w i u _ _ _ hu => exact (exec_host_frame hu).1

/-- No run changes the Program. -/
theorem run_imem {n : Nat} {s t : State} (h : Sys2Proof.core.run n s = .next t) :
    t.imem = s.imem := by
  induction n generalizing s with
  | zero =>
    rw [run_zero] at h
    cases h
    rfl
  | succ n ih =>
    obtain ⟨u, hstep, hrun⟩ := run_succ_eq_next h
    exact (ih hrun).trans (step_imem hstep)

/-- The effect of an execution is the same with another Program in place: its condition and its
result read no instruction memory. -/
theorem ExecEffect.with_imem {s t : State} {i : Instr} (h : ExecEffect s i t)
    (prog : List InstrWord) : ExecEffect { s with imem := prog } i { t with imem := prog } := by
  cases h with
  | add => exact .add ..
  | sub => exact .sub ..
  | and => exact .and ..
  | or => exact .or ..
  | xor => exact .xor ..
  | addi => exact .addi ..
  | load _ _ _ ha => exact .load _ _ _ ha
  | boundsLd _ _ ha => exact .boundsLd _ _ ha
  | store _ _ _ ha => exact .store _ _ _ ha
  | boundsSt _ _ ha => exact .boundsSt _ _ ha
  | beq => exact .beq ..
  | bne => exact .bne ..
  | jmp => exact .jmp ..
  | value _ _ _ hin => exact .value _ _ _ hin
  | endOfInput _ _ hin => exact .endOfInput _ _ hin
  | malformed _ _ hin => exact .malformed _ _ hin
  | outOfRange _ _ hin => exact .outOfRange _ _ hin
  | output => exact .output ..
  | halt => exact .halt

/-- An execution waits exactly when it is that of an IN and no answer stands on the input port. -/
theorem exec_eq_fault_iff {i : Instr} {s : State} {f : Fault} :
    exec i s = .fault f ↔ (∃ rd, i = .inp rd) ∧ s.input = [] := by
  cases f
  constructor
  · intro h
    rcases exec_cases i s with ⟨t, ht, -⟩ | ⟨rd, hi, hin, -⟩
    · cases ht.symm.trans h
    · exact ⟨⟨rd, hi⟩, hin⟩
  · rintro ⟨⟨rd, rfl⟩, hin⟩
    simp only [exec, execInp, State.inPort, hin]

/-- Settles O19: a run is a chain of steps that each keep the Program; an execution's effect, and the
condition under which it waits, are the same with another Program in place. -/
theorem programIsReadOnly : Obligations.ProgramIsReadOnly := by
  refine ⟨fun n s t h => run_imem h, fun i s prog => ⟨fun t ht => ?_, fun f hf => ?_⟩⟩
  · exact exec_of_effect ((exec_effect ht).with_imem prog)
  · obtain ⟨hinp, hwait⟩ := exec_eq_fault_iff.1 hf
    exact exec_eq_fault_iff.2 ⟨hinp, hwait⟩

end Sys2Proof.Machine
end

section
/-! PROOFS. The statements about the assembler, 30_encoding.md: the pseudo-instructions (R104, R105). -/

namespace Sys2Proof.Asm

/-- The mnemonic and operands of a statement count only through its defects and the instruction it
builds. -/
theorem assembleStatement_congr {table : LabelTable} {t t' first first' : Text}
    {ops ops' : List Text} {m m' : Mnemonic}
    (ht : tokens t = first :: ops) (hm : mnemonicOf first = some m)
    (ht' : tokens t' = first' :: ops') (hm' : mnemonicOf first' = some m')
    (hdefects : statementDefects table m ops = statementDefects table m' ops')
    (hbuild : buildInstr m (readOperands table m ops) = buildInstr m' (readOperands table m' ops')) :
    assembleStatement table t = assembleStatement table t' := by
  simp only [assembleStatement, ht, hm, ht', hm', hdefects, hbuild]

/-- The token `r0` names register 0 (30_encoding.md R97). -/
theorem readOperand_reg_r0 (table : LabelTable) :
    readOperand table .reg ['r', '0'] = .reg 0 := by
  have hparse : parseReg ['r', '0'] = some 0 := parseReg_regText 0
  simp only [readOperand, hparse]

/-- The operands of the ADDI that an LI stands for are the LI's, with register 0 between them. -/
theorem readOperands_li (table : LabelTable) (x y : Text) :
    ∃ a b, readOperands table .li [x, y] = [a, b] ∧
      readOperands table (.op .addi) [x, ['r', '0'], y] = [a, .reg 0, b] :=
  ⟨readOperand table .reg x, readOperand table .imm y, rfl, by
    rw [← readOperand_reg_r0 table]; rfl⟩

/-- The operands of the ADD that a MOV stands for are the MOV's, with register 0 after them. -/
theorem readOperands_mov (table : LabelTable) (x y : Text) :
    ∃ a b, readOperands table .mov [x, y] = [a, b] ∧
      readOperands table (.op .add) [x, y, ['r', '0']] = [a, b, .reg 0] :=
  ⟨readOperand table .reg x, readOperand table .reg y, rfl, by
    rw [← readOperand_reg_r0 table]; rfl⟩

/-- With as many operand tokens as its mnemonic takes, a statement has its operands' defects only. -/
theorem statementDefects_of_arity (table : LabelTable) {m : Mnemonic} {ops : List Text}
    (h : ops.length = (operandKinds m).length) :
    statementDefects table m ops = (readOperands table m ops).filterMap Operand.defect? := by
  rw [statementDefects, if_pos h, List.nil_append]

/-- An LI builds the ADDI with register 0 as its source (30_encoding.md R104). -/
theorem buildInstr_li (a b : Operand) :
    buildInstr .li [a, b] = buildInstr (.op .addi) [a, .reg 0, b] := by
  cases a <;> cases b <;> rfl

/-- A MOV builds the ADD with register 0 as its second source (30_encoding.md R105). -/
theorem buildInstr_mov (a b : Operand) :
    buildInstr .mov [a, b] = buildInstr (.op .add) [a, b, .reg 0] := by
  cases a <;> cases b <;> rfl

/-- A register read as such adds no defect, wherever it stands among the operands. -/
theorem filterMap_defect?_reg (before after : List Operand) (r : RegIdx) :
    (before ++ .reg r :: after).filterMap Operand.defect?
      = (before ++ after).filterMap Operand.defect? := by
  rw [List.filterMap_append, List.filterMap_cons_none rfl, ← List.filterMap_append]

/-- Settles O54: the expansion's operands are the pseudo-instruction's and register 0, which adds no
defect, and both build the same instruction. -/
theorem pseudoInstructionsExpand : Obligations.PseudoInstructionsExpand := by
  intro table t t' m m' x y
  constructor
  · intro ht hm ht' hm'
    obtain ⟨a, b, hli, haddi⟩ := readOperands_li table x y
    refine assembleStatement_congr ht hm ht' hm' ?_ ?_
    · rw [statementDefects_of_arity table rfl, statementDefects_of_arity table rfl, hli, haddi]
      exact (filterMap_defect?_reg [a] [b] 0).symm
    · rw [hli, haddi, buildInstr_li]
  · intro ht hm ht' hm'
    obtain ⟨a, b, hmov, hadd⟩ := readOperands_mov table x y
    refine assembleStatement_congr ht hm ht' hm' ?_ ?_
    · rw [statementDefects_of_arity table rfl, statementDefects_of_arity table rfl, hmov, hadd]
      exact (filterMap_defect?_reg [a, b] [] 0).symm
    · rw [hmov, hadd, buildInstr_mov]

end Sys2Proof.Asm
end

section
/-! PROOFS. The statements about arithmetic and logic, 40_alu.md: the words of ADD, SUB, AND, OR, XOR
(format R) and ADDI (format I), and what each writes to its destination (R121 to R126). -/

namespace Sys2Proof

/-- Field `c` and the eleven must-be-zero bits above it make up field `k` of a word of format R. -/
theorem append_regField (r : RegIdx) : 0#11 ++ regField r = BitVec.ofNat 16 r.val := by
  apply BitVec.eq_of_toNat_eq
  rw [regField, BitVec.toNat_append, BitVec.toNat_ofNat, BitVec.toNat_ofNat, BitVec.toNat_ofNat,
    Nat.zero_mod, Nat.zero_shiftLeft, Nat.zero_or]
  omega

/-- The picture of a word of format R is the word that the encoder builds from its fields, and
decodes alike. -/
theorem decode_packFields_r (o : Opcode) {a b c : RegIdx} {i : Instr}
    (h : decode (opBits o ||| aBits a ||| bBits b ||| cBits c) = .legal i) :
    decode (packFields o.number (regField a) (regField b) 0 (0#11 ++ regField c)) = .legal i := by
  rw [append_regField, packFields_eq_joinWord, joinWord, ← cBits_eq_kBits, h]

end Sys2Proof

namespace Sys2Proof.Machine

/-- A register write leaves everything but its register as it was. -/
theorem State.onlyRegister_writeReg (s : State) (r : RegIdx) (v : Word) :
    s.OnlyRegister r (s.writeReg r v) :=
  ⟨rfl, fun _ hq => s.readReg_writeReg_ne hq v⟩

/-- What the register written reads as: the Word written, 0x0000 for register 0. -/
theorem State.readReg_writeReg (s : State) (r : RegIdx) (v : Word) :
    (s.writeReg r v).readReg r = if r = 0 then 0 else v := by
  split
  · next hr =>
    subst hr
    rfl
  · next hr => exact s.readReg_writeReg_self hr v

/-- The value the register written reads as. -/
theorem State.readReg_writeReg_toNat (s : State) (r : RegIdx) (v : Word) :
    ((s.writeReg r v).readReg r).toNat = if r = 0 then 0 else v.toNat := by
  rw [State.readReg_writeReg, apply_ite BitVec.toNat]
  rfl

/-- The bits set in the register written: those of the Word written, none in register 0. -/
theorem State.readReg_writeReg_getLsbD (s : State) (r : RegIdx) (v : Word) (n : Nat) :
    ((s.writeReg r v).readReg r).getLsbD n = true ↔ r ≠ 0 ∧ v.getLsbD n = true := by
  rw [State.readReg_writeReg]
  split
  · next hr => simp [hr]
  · next hr => simp [hr]

/-- The difference is taken modulo 65536: a borrow adds 65536 (40_alu.md R120). -/
theorem wordSub_toNat (x y : Word) :
    (wordSub x y).toNat =
      if y.toNat ≤ x.toNat then x.toNat - y.toNat else x.toNat + 65536 - y.toNat := by
  have hx := x.isLt
  have hy := y.isLt
  rw [wordSub_eq, BitVec.toNat_sub]
  split
  · next hle => omega
  · next hlt => omega

/-- Settles O24: the sum written is the masked one. -/
theorem addWritesTheMaskedSum : Obligations.AddWritesTheMaskedSum := by
  intro rd rs1 rs2
  refine ⟨decode_packFields_r .add (Laws.RoundTrip.add rd rs1 rs2 rfl),
    fun s => ⟨_, exec_of_effect (.add rd rs1 rs2), s.onlyRegister_writeReg rd _, ?_⟩⟩
  rw [State.readReg_writeReg_toNat, wordAdd_toNat]

/-- Settles O25: the difference written is the masked one, the first source its minuend. -/
theorem subWritesTheMaskedDifference : Obligations.SubWritesTheMaskedDifference := by
  intro rd rs1 rs2
  refine ⟨decode_packFields_r .sub (Laws.RoundTrip.sub rd rs1 rs2 rfl),
    fun s => ⟨_, exec_of_effect (.sub rd rs1 rs2), s.onlyRegister_writeReg rd _, ?_⟩⟩
  rw [State.readReg_writeReg_toNat, wordSub_toNat]

/-- Settles O26: a bit of the conjunction is set when it is set in both sources. -/
theorem andWritesBitByBit : Obligations.AndWritesBitByBit := by
  intro rd rs1 rs2
  refine ⟨decode_packFields_r .and (Laws.RoundTrip.and rd rs1 rs2 rfl),
    fun s => ⟨_, exec_of_effect (.and rd rs1 rs2), s.onlyRegister_writeReg rd _, fun n _ => ?_⟩⟩
  rw [State.readReg_writeReg_getLsbD, BitVec.getLsbD_and, Bool.and_eq_true]

/-- Settles O27: a bit of the disjunction is set when it is set in either source. -/
theorem orWritesBitByBit : Obligations.OrWritesBitByBit := by
  intro rd rs1 rs2
  refine ⟨decode_packFields_r .or (Laws.RoundTrip.or rd rs1 rs2 rfl),
    fun s => ⟨_, exec_of_effect (.or rd rs1 rs2), s.onlyRegister_writeReg rd _, fun n _ => ?_⟩⟩
  rw [State.readReg_writeReg_getLsbD, BitVec.getLsbD_or, Bool.or_eq_true]

/-- Settles O28: a bit of the exclusive disjunction is set when the sources differ in it. -/
theorem xorWritesBitByBit : Obligations.XorWritesBitByBit := by
  intro rd rs1 rs2
  refine ⟨decode_packFields_r .xor (Laws.RoundTrip.xor rd rs1 rs2 rfl),
    fun s => ⟨_, exec_of_effect (.xor rd rs1 rs2), s.onlyRegister_writeReg rd _, fun n _ => ?_⟩⟩
  rw [State.readReg_writeReg_getLsbD, BitVec.getLsbD_xor, bne_iff_ne]

/-- Settles O29: the immediate is the word's field `k`, and the sum written is the masked one. -/
theorem addiWritesTheMaskedSum : Obligations.AddiWritesTheMaskedSum := by
  intro rd rs1 imm
  refine ⟨(congrArg decode (packFields_eq_joinWord .addi rd rs1 imm)).trans
      (Laws.RoundTrip.addi rd rs1 imm rfl),
    fun s => ⟨_, exec_of_effect (.addi rd rs1 imm), s.onlyRegister_writeReg rd _, ?_⟩⟩
  rw [State.readReg_writeReg_toNat, wordAdd_toNat]

end Sys2Proof.Machine
end

section
/-! PROOFS. The statements about control transfer, 42_branch_jump.md: the words of BEQ and BNE
(format B) and JMP (format J), and where each leaves the program counter (R135 to R137). -/

namespace Sys2Proof

/-- The picture of a word of format B is the word that the encoder builds from its fields, and
decodes alike. -/
theorem decode_packFields_b (o : Opcode) {a b : RegIdx} {k : BitVec 16} {i : Instr}
    (h : decode (opBits o ||| aBits a ||| bBits b ||| kBits k) = .legal i) :
    decode (packFields o.number (regField a) (regField b) 0 k) = .legal i := by
  rw [packFields_eq_joinWord, joinWord, h]

/-- The picture of a word of format J, whose register fields must be zero, is the word that the
encoder builds from its opcode and field `k`, and decodes alike. -/
theorem decode_packFields_j (o : Opcode) {k : BitVec 16} {i : Instr}
    (h : decode (opBits o ||| kBits k) = .legal i) :
    decode (packFields o.number 0 0 0 k) = .legal i := by
  rw [show (0 : BitVec 5) = regField 0 from rfl, packFields_eq_joinWord, joinWord_k, h]

end Sys2Proof

namespace Sys2Proof.Machine

/-- Settles O34: the branch is taken when the comparator finds the registers equal, and what it sets
is the program counter alone. -/
theorem beqBranchesWhenEqual : Obligations.BeqBranchesWhenEqual := fun rs1 rs2 target =>
  ⟨decode_packFields_b .beq (Laws.RoundTrip.beq rs1 rs2 target rfl), exec_beq rs1 rs2 target⟩

/-- Settles O35: the branch is taken when the comparator finds the registers different, and what it
sets is the program counter alone. -/
theorem bneBranchesWhenDifferent : Obligations.BneBranchesWhenDifferent := fun rs1 rs2 target =>
  ⟨decode_packFields_b .bne (Laws.RoundTrip.bne rs1 rs2 target rfl), exec_bne rs1 rs2 target⟩

/-- Settles O36: the jump is taken in every state, and what it sets is the program counter alone. -/
theorem jmpSetsThePc : Obligations.JmpSetsThePc := fun target =>
  ⟨decode_packFields_j .jmp (Laws.RoundTrip.jmp target rfl), fun _ => exec_of_effect (.jmp target)⟩

end Sys2Proof.Machine
end

section
/-! PROOFS. The statements about input and output, 43_io.md: the words of IN and OUT (format P),
what each does at its port (R140, R145), that nothing else reaches the ports (R150), and the line of
text that OUT prints (R147). -/

namespace Sys2Proof

/-- The picture of a word of format P, whose fields after `a` must be zero, is the word that the
encoder builds from its opcode and field `a`, and decodes alike. -/
theorem decode_packFields_p (o : Opcode) {a : RegIdx} {i : Instr}
    (h : decode (opBits o ||| aBits a) = .legal i) :
    decode (packFields o.number (regField a) 0 0 0) = .legal i := by
  rw [show (0 : BitVec 5) = regField 0 from rfl, packFields_eq_joinWord, joinWord_a, h]

end Sys2Proof

namespace Sys2Proof.Machine

/-! ### IN and OUT at the ports -/

/-- An execution takes nothing from the input port, or it is that of an IN and takes the next
answer. -/
theorem exec_input {i : Instr} {s t : State} (h : exec i s = .next t) :
    t.input = s.input ∨ ∃ rd r, i = .inp rd ∧ s.input = r :: t.input := by
  cases exec_effect h with
  | value rd v rest hin => exact .inr ⟨rd, _, rfl, hin⟩
  | malformed rd rest hin | outOfRange rd rest hin => exact .inr ⟨rd, _, rfl, hin⟩
  | add | sub | and | or | xor | addi | load | boundsLd | store | boundsSt | beq | bne | jmp
  | endOfInput | output | halt => exact .inl rfl

/-- An execution gives nothing to the output port, or it is that of an OUT and adds its register's
Word. -/
theorem exec_output {i : Instr} {s t : State} (h : exec i s = .next t) :
    t.output = s.output ∨ ∃ rs, i = .out rs ∧ t.output = s.output ++ [s.readReg rs] := by
  cases exec_effect h with
  | output rs => exact .inr ⟨rs, rfl, rfl⟩
  | add | sub | and | or | xor | addi | load | boundsLd | store | boundsSt | beq | bne | jmp
  | value | endOfInput | malformed | outOfRange | halt => exact .inl rfl

/-- Settles O21, by the effects of a step: only an executed instruction can reach a port, and it
does so as its execution in the state with `pc` advanced. -/
theorem onlyInAndOutTouchThePorts : Obligations.OnlyInAndOutTouchThePorts := by
  intro s t hstep
  cases step_effect hstep with
  | stopped | outOfProgram | illegal => exact ⟨.inl rfl, .inl rfl⟩
  | executed w i u h hw hd hu =>
    constructor
    · rcases exec_input hu with hsame | ⟨rd, r, rfl, htaken⟩
      · exact .inl hsame
      · exact .inr ⟨rd, r, ⟨h, w, hw, hd⟩, htaken⟩
    · rcases exec_output hu with hsame | ⟨rs, rfl, hadded⟩
      · exact .inl hsame
      · exact .inr ⟨rs, ⟨h, w, hw, hd⟩, hadded⟩

/-- Settles O37: each clause is the effect of an IN with that answer at the head of the port. -/
theorem inTakesOneAnswer : Obligations.InTakesOneAnswer := fun rd =>
  ⟨decode_packFields_p .inp (Laws.RoundTrip.inp rd rfl), fun _ rest =>
    ⟨fun v hin => ⟨_, exec_of_effect (.value rd v rest hin), State.onlyRegister_writeReg _ rd v,
        State.readReg_writeReg _ rd v⟩,
      fun hin => exec_of_effect (.endOfInput rd rest hin),
      fun hin => exec_of_effect (.malformed rd rest hin),
      fun hin => exec_of_effect (.outOfRange rd rest hin)⟩⟩

/-- Settles O38: the effect of an OUT is the sink's taking of the register's Word. -/
theorem outHandsOverTheWord : Obligations.OutHandsOverTheWord := fun rs =>
  ⟨decode_packFields_p .out (Laws.RoundTrip.out rs rfl), fun _ => exec_of_effect (.output rs)⟩

/-! ### The line of text of one Word -/

/-- The two's-complement reading as a sign and a magnitude, by the Word's unsigned value. -/
theorem signedDec5_eq (v : Word) :
    signedDec5 v = (if v.toNat < 32768 then '+' else '-') ::
      dec5 (if v.toNat < 32768 then v.toNat else 65536 - v.toNat) := by
  have hv := v.isLt
  unfold signedDec5 signed16
  split
  · next hlow => rw [if_neg (by omega), Int.natAbs_natCast]
  · next hhigh =>
    rw [if_pos (by omega), show ((v.toNat : Int) - 65536).natAbs = 65536 - v.toNat by omega]

/-- The five digits printed write the magnitude. -/
theorem digitsValue_dec5 {n : Nat} (hn : n < 100000) :
    DigitsValue 10 decDigitTable (dec5 n) n :=
  digits_dec.1 ((if_neg (List.cons_ne_nil _ _)).trans (Asm.digitsFrom_dec5 hn))

/-- A printed hexadecimal digit reads as its value. -/
theorem hexDigit?_hexChar : ∀ d : Fin 16, hexDigit? (hexChar d) = some d.val := by decide

/-- The hexadecimal digits that OUT prints, in lower case (43_io.md R147). -/
def lowerHexDigits : Text :=
  ['0', '1', '2', '3', '4', '5', '6', '7', '8', '9', 'a', 'b', 'c', 'd', 'e', 'f']

/-- Hexadecimal digits are printed in lower case. -/
theorem hexChar_mem_lower : ∀ d : Fin 16, hexChar d ∈ lowerHexDigits := by decide

/-- The four hexadecimal digits printed write the Word's unsigned value. -/
theorem digitsValue_hex4 (v : Word) : DigitsValue 16 hexDigitTable (hex4 v) v.toNat := by
  have hv := v.isLt
  have hread := fun k => hexDigit?_hexChar ⟨k % 16, by omega⟩
  have hfrom : digitsFrom 16 hexDigit? 0 (hex4 v) = some v.toNat := by
    simp only [hex4, digitsFrom, hread]
    congr 1
    omega
  exact digits_hex.1 ((if_neg (List.cons_ne_nil _ _)).trans hfrom)

/-- All four hexadecimal digits are printed in lower case. -/
theorem hex4_lower (v : Word) : ∀ c ∈ hex4 v, c ∈ lowerHexDigits := by
  have hlower := fun k => hexChar_mem_lower ⟨k % 16, by omega⟩
  simp only [hex4, List.forall_mem_cons]
  exact ⟨hlower _, hlower _, hlower _, hlower _, List.forall_mem_nil _⟩

/-- Settles O50: the line is the sign with the five digits of the magnitude, then the four
hexadecimal digits in parentheses, and both digit strings write their values. -/
theorem outLineHasTheExactForm : Obligations.OutLineHasTheExactForm := by
  intro v
  have hv := v.isLt
  refine ⟨dec5 (if v.toNat < 32768 then v.toNat else 65536 - v.toNat), hex4 v,
    by rw [outLine, signedDec5_eq], rfl, rfl, rfl, digitsValue_dec5 ?_, digitsValue_hex4 v,
    hex4_lower v⟩
  split
  · next hlow => omega
  · next hhigh => omega

end Sys2Proof.Machine
end

section
/-! PROOFS. The statement about HALT, 44_system.md R160: its word (format Z) and the step that
executes it. -/

namespace Sys2Proof

/-- The mask of HALT's row of the opcode map covers the whole word, so one word matches it
(30_encoding.md R76). -/
theorem decode_eq_halt_iff (w : InstrWord) : decode w = .legal .halt ↔ w = 0xD0000000 := by
  constructor
  · intro h
    obtain ⟨o, hop, hclear, hi⟩ := decode_eq_legal h
    obtain rfl : Opcode.halt = o := (congrArg Instr.opcode hi).trans (opcode_instrOfFields o w)
    calc w = w &&& Opcode.halt.maskWord := BitVec.and_allOnes.symm
      _ = Opcode.halt.matchWord := (and_maskWord_eq_matchWord_iff w .halt).2 ⟨hop, hclear⟩
  · rintro rfl
    exact Laws.RoundTrip.halt rfl

end Sys2Proof

namespace Sys2Proof.Machine

/-- With the register file kept, no register counts as changed. -/
theorem changedRegs_of_regs_eq {s t : State} (h : t.regs = s.regs) : changedRegs s t = [] :=
  List.filterMap_eq_nil_iff.2 fun r _ =>
    if_pos (by rw [State.readReg_eq, State.readReg_eq, h])

/-- Settles O39: the step is the effect of a HALT in the state with `pc` advanced, and then the end
of a step without a fault, whose record is empty because the register file is kept. -/
theorem haltStopsTheMachine : Obligations.HaltStopsTheMachine := by
  refine ⟨decode_eq_halt_iff, fun s => exec_of_effect .halt, fun s ⟨hrun, w, hw, hd⟩ => ?_⟩
  have hkept : changedRegs s (s.advance.setStatus .halted) = [] := changedRegs_of_regs_eq rfl
  rw [step_of_legal hrun hw hd, exec_of_effect .halt, finishStep, State.retire_eq_ite, hkept]
  rfl

end Sys2Proof.Machine
end

section
/-! PROOFS. The statements about instruction words, 30_encoding.md part A: the round trip (R83), the
opcode map (R76), and the words that are no instruction (R79, R80, 44_system.md R161). -/

namespace Sys2Proof

/-! ### The round trip -/

/-- Decoding the encoding of a well-formed instruction gives the instruction back: the round trip
of its constructor. -/
theorem decode_encode {i : Instr} (h : i.wf = true) : decode (encode i) = .legal i := by
  cases i with
  | add rd rs1 rs2 => exact Laws.RoundTrip.add rd rs1 rs2 h
  | sub rd rs1 rs2 => exact Laws.RoundTrip.sub rd rs1 rs2 h
  | and rd rs1 rs2 => exact Laws.RoundTrip.and rd rs1 rs2 h
  | or rd rs1 rs2 => exact Laws.RoundTrip.or rd rs1 rs2 h
  | xor rd rs1 rs2 => exact Laws.RoundTrip.xor rd rs1 rs2 h
  | addi rd rs1 imm => exact Laws.RoundTrip.addi rd rs1 imm h
  | ld rd addr => exact Laws.RoundTrip.ld rd addr h
  | st rs addr => exact Laws.RoundTrip.st rs addr h
  | beq rs1 rs2 target => exact Laws.RoundTrip.beq rs1 rs2 target h
  | bne rs1 rs2 target => exact Laws.RoundTrip.bne rs1 rs2 target h
  | jmp target => exact Laws.RoundTrip.jmp target h
  | inp rd => exact Laws.RoundTrip.inp rd h
  | out rs => exact Laws.RoundTrip.out rs h
  | halt => exact Laws.RoundTrip.halt h

/-- Settles O2: the round trip of every constructor. -/
theorem encodeThenDecodeIsIdentity : Obligations.EncodeThenDecodeIsIdentity :=
  fun _ h => decode_encode h

/-- A register field whose bits are zero names register 0. -/
theorem regOfField_eq_zero {f : BitVec 5} (h : f.toNat = 0) : regOfField f = 0 := Fin.ext h

/-- A word of format R is the encoder's join of its opcode and three register fields. -/
theorem eq_join_of_clear_r {w : InstrWord} {o : Opcode} (ho : opField w = o.number)
    (hz : w &&& Format.r.mustBeZero = 0) :
    opBits o ||| aBits (regOfField (aField w)) ||| bBits (regOfField (bField w)) |||
      cBits (regOfField (cField w)) = w := by
  have hclear := (mustBeZero_r w).1 hz
  have hk : BitVec.ofNat 16 (regOfField (cField w)).val = kField w := by
    apply BitVec.eq_of_toNat_eq
    rw [BitVec.toNat_ofNat, kField_toNat, show (regOfField (cField w)).val = w.toNat % 2 ^ 5 from
      cField_toNat w]
    omega
  rw [cBits_eq_kBits, hk]
  exact (eq_joinWord w o ho (by omega)).symm

/-- A word of format I or B is the encoder's join of its opcode, two register fields and field
`k`. -/
theorem eq_join_of_clear_i {w : InstrWord} {o : Opcode} (ho : opField w = o.number)
    (hz : w &&& Format.i.mustBeZero = 0) :
    opBits o ||| aBits (regOfField (aField w)) ||| bBits (regOfField (bField w)) |||
      kBits (kField w) = w :=
  (eq_joinWord w o ho ((mustBeZero_i w).1 hz)).symm

/-- A word of format M is the encoder's join of its opcode, field `a` and the address in field
`k`. -/
theorem eq_join_of_clear_m {w : InstrWord} {o : Opcode} (ho : opField w = o.number)
    (hz : w &&& Format.m.mustBeZero = 0) :
    opBits o ||| aBits (regOfField (aField w)) ||| kBits (mask16 ((kField w).toNat : Int)) = w := by
  have hclear := (mustBeZero_m w).1 hz
  have hb : regOfField (bField w) = 0 := regOfField_eq_zero (by rw [bField_toNat]; omega)
  have hw := eq_joinWord w o ho (by omega)
  rw [hb, joinWord_ak] at hw
  rw [mask16_natCast]
  exact hw.symm

/-- A word of format J is the encoder's join of its opcode and field `k`. -/
theorem eq_join_of_clear_j {w : InstrWord} {o : Opcode} (ho : opField w = o.number)
    (hz : w &&& Format.j.mustBeZero = 0) : opBits o ||| kBits (kField w) = w := by
  have hclear := (mustBeZero_j w).1 hz
  have ha : regOfField (aField w) = 0 := regOfField_eq_zero (by rw [aField_toNat]; omega)
  have hb : regOfField (bField w) = 0 := regOfField_eq_zero (by rw [bField_toNat]; omega)
  have hw := eq_joinWord w o ho (by omega)
  rw [ha, hb, joinWord_k] at hw
  exact hw.symm

/-- A word of format P is the encoder's join of its opcode and field `a`. -/
theorem eq_join_of_clear_p {w : InstrWord} {o : Opcode} (ho : opField w = o.number)
    (hz : w &&& Format.p.mustBeZero = 0) : opBits o ||| aBits (regOfField (aField w)) = w := by
  have hclear := (mustBeZero_p w).1 hz
  have hb : regOfField (bField w) = 0 := regOfField_eq_zero (by rw [bField_toNat]; omega)
  have hk : kField w = 0 := by
    apply BitVec.eq_of_toNat_eq
    rw [kField_toNat, show (0 : BitVec 16).toNat = 0 from rfl]
    omega
  have hw := eq_joinWord w o ho (by omega)
  rw [hb, hk, joinWord_a] at hw
  exact hw.symm

/-- A word of an assigned opcode with clear must-be-zero bits is the encoding of its instruction. -/
theorem encode_instrOfFields {w : InstrWord} {o : Opcode} (ho : opField w = o.number)
    (hz : w &&& o.format.mustBeZero = 0) : encode (instrOfFields o w) = w := by
  cases o with
  | add | sub | and | or | xor => exact eq_join_of_clear_r ho hz
  | addi | beq | bne => exact eq_join_of_clear_i ho hz
  | ld | st => exact eq_join_of_clear_m ho hz
  | jmp => exact eq_join_of_clear_j ho hz
  | inp | out => exact eq_join_of_clear_p ho hz
  | halt => exact ((decode_eq_halt_iff w).1 (decode_of_opcode ho hz)).symm

/-- Settles O3: a decoded word has an assigned opcode and clear must-be-zero bits, so its fields are
all there is of it. -/
theorem decodeThenEncodeIsIdentity : Obligations.DecodeThenEncodeIsIdentity := by
  refine fun w i h => ⟨wf_of_decode h, ?_⟩
  obtain ⟨o, ho, hz, rfl⟩ := decode_eq_legal h
  exact encode_instrOfFields ho hz

/-! ### The opcode map -/

/-- A word decodes to an instruction of an opcode exactly when it has its number in field `op` and
its format's must-be-zero bits clear. -/
theorem exists_decode_opcode_iff (w : InstrWord) (o : Opcode) :
    (∃ i, decode w = .legal i ∧ i.opcode = o) ↔
      opField w = o.number ∧ w &&& o.format.mustBeZero = 0 := by
  constructor
  · rintro ⟨i, hd, rfl⟩
    obtain ⟨o, ho, hz, rfl⟩ := decode_eq_legal hd
    rw [opcode_instrOfFields]
    exact ⟨ho, hz⟩
  · rintro ⟨ho, hz⟩
    exact ⟨_, decode_of_opcode ho hz, opcode_instrOfFields o w⟩

/-- The rows written out are those of the opcodes' match and mask words. -/
theorem opcodeMap_row : ∀ row ∈ opcodeMap, row = (row.1, row.1.matchWord, row.1.maskWord) := by
  decide

/-- Every opcode has its row. -/
theorem mem_opcodeMap (o : Opcode) : (o, o.matchWord, o.maskWord) ∈ opcodeMap := by
  cases o <;> decide

/-- A word matches a row exactly when it has the number of the row's opcode in field `op` and the
must-be-zero bits of its format clear. -/
theorem matches_row_iff {row : Opcode × InstrWord × InstrWord} (hrow : row ∈ opcodeMap)
    (w : InstrWord) :
    w &&& row.2.2 = row.2.1 ↔ opField w = row.1.number ∧ w &&& row.1.format.mustBeZero = 0 := by
  rw [← and_maskWord_eq_matchWord_iff, opcodeMap_row row hrow]

/-- Settles O4: matching a row and decoding to its opcode are one condition on field `op` and the
must-be-zero bits, and field `op` determines the row. -/
theorem opcodeMapRowMatchesExactly : Obligations.OpcodeMapRowMatchesExactly := by
  refine ⟨fun row hrow w => (exists_decode_opcode_iff w row.1).trans (matches_row_iff hrow w).symm,
    fun o => ⟨_, mem_opcodeMap o, rfl⟩, fun w row hrow row' hrow' hm hm' => ?_⟩
  have hop := ((matches_row_iff hrow w).1 hm).1
  have hop' := ((matches_row_iff hrow' w).1 hm').1
  rw [opcodeMap_row row hrow, opcodeMap_row row' hrow', number_injective (hop.symm.trans hop')]

/-! ### Words that are no instruction -/

/-- The numbers 0xE and 0xF, and no others, are unassigned. -/
theorem opcodeOfNumber_eq_none_iff : ∀ op : BitVec 4, opcodeOfNumber op = none ↔ 14 ≤ op.toNat := by
  decide

/-- A word with an unassigned number in field `op` is Illegal. -/
theorem decode_of_unassigned {w : InstrWord} (h : 14 ≤ (opField w).toNat) :
    decode w = .illegal .unassignedOpcode := by
  simp only [decode, (opcodeOfNumber_eq_none_iff _).2 h]

/-- A word of an assigned opcode with a must-be-zero bit set is Illegal. -/
theorem decode_of_spareBits {w : InstrWord} {o : Opcode} (ho : opField w = o.number)
    (hz : w &&& o.format.mustBeZero ≠ 0) : decode w = .illegal .mustBeZeroBits := by
  simp only [decode, ho, opcodeOfNumber_number]
  exact if_neg hz

/-- The Illegal words. -/
theorem decode_toOption_eq_none_iff (w : InstrWord) : (decode w).toOption = none ↔
    14 ≤ (opField w).toNat ∨
      ∃ o : Opcode, opField w = o.number ∧ w &&& o.format.mustBeZero ≠ 0 := by
  constructor
  · intro h
    rcases hop : opcodeOfNumber (opField w) with _ | o
    · exact .inl ((opcodeOfNumber_eq_none_iff _).1 hop)
    · have ho := number_of_opcodeOfNumber hop
      refine .inr ⟨o, ho, fun hz => ?_⟩
      rw [decode_of_opcode ho hz] at h
      cases h
  · rintro (h | ⟨o, ho, hz⟩)
    · rw [decode_of_unassigned h]
      rfl
    · rw [decode_of_spareBits ho hz]
      rfl

/-- Settles O6: such a word has 0xE or 0xF in field `op`. -/
theorem unassignedOpcodeIsIllegal : Obligations.UnassignedOpcodeIsIllegal := by
  intro w h
  have hw := w.isLt
  exact decode_of_unassigned (by rw [opField_toNat]; omega)

/-- Settles O1, by evaluation of the decoder. -/
theorem sampleWordsDecode : Obligations.SampleWordsDecode := by
  unfold Obligations.SampleWordsDecode
  decide

/-- Settles O5: the bit is set in the word and in its format's must-be-zero bits alike. -/
theorem nonzeroSpareBitIsIllegal : Obligations.NonzeroSpareBitIsIllegal := by
  intro w o n ho hmask hbit
  have hz : w &&& o.format.mustBeZero ≠ 0 := by
    intro hzero
    have hn : (w &&& o.format.mustBeZero).getLsbD n = true := by
      rw [BitVec.getLsbD_and, hbit, hmask]
      rfl
    rw [hzero] at hn
    simp at hn
  have hd := decode_of_spareBits ho hz
  exact ⟨hd, fun s hrun hw => Machine.step_of_illegal hrun hw hd⟩

/-- Settles O8: the effect of an Illegal word, which words those are, and the round trip. -/
theorem illegalWordRaisesUnknownOpcode : Obligations.IllegalWordRaisesUnknownOpcode := by
  refine ⟨fun s ⟨hrun, w, hw, hd⟩ => ?_, decode_toOption_eq_none_iff, fun i hi => ?_⟩
  · obtain ⟨why, hd⟩ := Machine.toOption_eq_none.1 hd
    exact Machine.step_of_illegal hrun hw hd
  · rw [decode_encode hi]
    exact Option.some_ne_none i

end Sys2Proof
end

section
/-! PROOFS. The invariants of a run, 10_state.md: what every start meets (R40,
70_reset_and_hazards.md R190) and every step keeps, what a stopped machine shows (R32, R38), and
the status port (R33). -/

namespace Sys2Proof.Machine

/-! ### Stopped machines and the status port -/

/-- Any number of steps leaves a stopped machine as it is. -/
theorem run_of_stopped {s : State} (h : s.status ≠ .running) (n : Nat) :
    Sys2Proof.core.run n s = .next s := by
  induction n with
  | zero => exact run_zero s
  | succ n ih => rw [run_succ_of_next (step_of_stopped h), ih]

/-- Settles O9: no step leaves a terminal status, the reset event does. -/
theorem stoppedMachineChangesNothing : Obligations.StoppedMachineChangesNothing :=
  fun _ h => ⟨run_of_stopped h, fun _ => rfl⟩

/-- The low bits of the port are the run status, whatever the cause. -/
theorem Status.port_low (st : Status) : st.port.extractLsb' 0 2 = match st with
    | .running => 0 | .halted => 1 | .outOfProgram => 2 | .runtimeFault _ => 3 := by
  cases st with
  | running | halted | outOfProgram => rfl
  | runtimeFault c => cases c <;> rfl

/-- The high bits of the port are the cause code, 0 where there is no cause. -/
theorem Status.port_high (st : Status) : st.port.extractLsb' 2 3 = match st with
    | .runtimeFault c => c.code | _ => 0 := by
  cases st with
  | running | halted | outOfProgram => rfl
  | runtimeFault c => cases c <;> rfl

/-- Settles O41: the two fields of the port, by status and cause. -/
theorem statusPortEncodesStatusAndCause : Obligations.StatusPortEncodesStatusAndCause := by
  intro s
  rw [State.statusPort, Status.port_low, Status.port_high]
  cases s.status with
  | running | halted | outOfProgram => decide
  | runtimeFault c => cases c <;> decide

/-! ### Starting states -/

/-- Every register of the reset state reads 0x0000. -/
theorem readReg_reset (r : RegIdx) : State.reset.readReg r = 0 := by
  rw [State.readReg_eq, RegFile.read]
  split
  · rfl
  · exact Vector.getElem_replicate r.isLt

/-- Settles O42: the fields of the reset state. -/
theorem resetLeavesTheListedValues : Obligations.ResetLeavesTheListedValues :=
  ⟨rfl, rfl, rfl, readReg_reset, fun _ => rfl, rfl⟩

/-- A Running state with nothing counted or traced yet meets the three invariants when its
registers, memory and Program are admissible. -/
theorem State.invariants_of_start {s : State} (hreg : s.regs[0] = 0) (hmem : s.dmem.wf = true)
    (hprog : s.imem.length ≤ 65535) (hstatus : s.status = .running) (htrace : s.trace = [])
    (hcount : s.count = 0) : s.Inv ∧ s.StopExplained ∧ s.TraceSound := by
  refine ⟨⟨hreg, hmem, hprog, by simp [hstatus], fun _ => htrace,
    fun _ => by simp [htrace, hcount]⟩, ?_, ?_⟩
  · rw [State.StopExplained, hstatus]
    trivial
  · intro r hr
    rw [htrace] at hr
    cases hr

/-- Settles O13: the reset state is such a start. -/
theorem resetMeetsTheInvariants : Obligations.ResetMeetsTheInvariants :=
  State.invariants_of_start rfl reset_dmem_wf (Nat.zero_le _) rfl rfl rfl

/-- Settles O43: the reset event sets every field, and gives such a start. -/
theorem resetEventInheritsNothing : Obligations.ResetEventInheritsNothing :=
  fun _ _ => ⟨rfl, fun hprog => State.invariants_of_start rfl reset_dmem_wf hprog rfl rfl rfl⟩

/-- Initial register contents leave the stored slot of register 0 alone. -/
theorem initRegs_slot_zero (l : List (RegIdx × Word)) (f : RegFile) : (initRegs f l)[0] = f[0] := by
  induction l generalizing f with
  | nil => rfl
  | cons p rest ih => exact (ih _).trans (RegFile.write_slot_zero f p.1 p.2)

/-- Initial memory contents keep the canonical form. -/
theorem initMem_wf (l : List (PC × Word)) {m : Memory} (hm : m.wf = true) :
    (initMem m l).wf = true := by
  induction l generalizing m with
  | nil => exact hm
  | cons p rest ih => exact ih (Memory.wf_write p.2 p.1.isLt hm)

/-- Settles O14: the launched state is a start with whatever registers and memory were given. -/
theorem launchMeetsTheInvariants : Obligations.LaunchMeetsTheInvariants := by
  refine fun l => ⟨fun hprog => ?_, fun hlong => if_neg (by omega)⟩
  obtain ⟨hinv, hstop, htrace⟩ := State.invariants_of_start
    (s := { State.reset with
      regs := initRegs State.reset.regs l.regInit
      dmem := initMem State.reset.dmem l.memInit
      imem := l.prog
      input := l.input
      traceEn := l.traceEn })
    (initRegs_slot_zero l.regInit _) (initMem_wf l.memInit reset_dmem_wf) hprog rfl rfl rfl
  exact ⟨_, if_pos hprog, hinv, hstop, htrace, rfl, rfl, rfl, rfl, rfl⟩

/-! ### What every step keeps -/

/-- The invariant reads neither `pc` nor the ports, and the status only for its cause. -/
theorem State.Inv.of_frame {s t : State} (hinv : s.Inv) (hregs : t.regs = s.regs)
    (hdmem : t.dmem = s.dmem) (himem : t.imem = s.imem)
    (hstatus : t.status ≠ .runtimeFault .memBounds) (hen : t.traceEn = s.traceEn)
    (htrace : t.trace = s.trace) (hcount : t.count = s.count) : t.Inv := by
  obtain ⟨hreg, hmem, hprog, -, hoff, hon⟩ := hinv
  refine ⟨by simpa only [hregs] using hreg, hdmem ▸ hmem, himem ▸ hprog, hstatus, ?_, ?_⟩
  · rwa [hen, htrace]
  · rwa [hen, htrace, hcount]

/-- A decoded instruction raises no MemBounds. -/
theorem exec_status_ne_memBounds {i : Instr} {s t : State} (h : exec i s = .next t)
    (hi : i.wf = true) (hs : s.status = .running) : t.status ≠ .runtimeFault .memBounds := by
  rcases exec_status h hi with he | ⟨-, he⟩ | ⟨rd, -, ⟨he, -⟩ | ⟨he, -⟩ | ⟨he, -⟩⟩ <;> simp [he, hs]

/-- The end of a step keeps the count and the trace in step. -/
theorem State.retire_traceOn {s t : State} {i : Instr} (hen : t.traceEn = true)
    (h : t.trace.length = t.count) : (s.retire i t).trace.length = (s.retire i t).count := by
  cases hf : t.status.isFault <;> simp [hf, hen, h]

/-- Settles O12, by the effects of a step: the execution keeps registers and memory in form and
leaves the host's fields alone, and the end of the step counts and traces in step. -/
theorem stepKeepsTheInvariant : Obligations.StepKeepsTheInvariant := by
  intro s t hinv hstep
  cases step_effect hstep with
  | stopped => exact hinv
  | outOfProgram => exact hinv.of_frame rfl rfl rfl nofun rfl rfl rfl
  | illegal => exact hinv.of_frame rfl rfl rfl nofun rfl rfl rfl
  | executed w i u hrun hw hd hu =>
    obtain ⟨hreg, hmem, hprog, -, hoff, hon⟩ := hinv
    obtain ⟨himem, hen, htrace, hcount⟩ := exec_host_frame hu
    have hmem' := exec_keeps_memWf hu hmem
    have hstatus := exec_status_ne_memBounds hu (wf_of_decode hd) hrun
    refine ⟨(exec_keeps_slot_zero hu).trans hreg, hmem', ?_, hstatus, fun h => ?_, fun h => ?_⟩
    · rw [State.retire_imem, himem]
      exact hprog
    · rw [State.retire_traceEn] at h
      rw [State.retire_trace, h, Bool.and_false, if_neg Bool.false_ne_true, htrace]
      exact hoff (hen.symm.trans h)
    · rw [State.retire_traceEn] at h
      refine State.retire_traceOn h ?_
      rw [htrace, hcount]
      exact hon (hen.symm.trans h)

/-- Where `pc` is one after a fetch from an admitted Program, the word before it is the one
fetched. -/
theorem wordBeforePc_of_advanced {s t : State} {w : InstrWord} (hw : s.fetch = some w)
    (hprog : s.imem.length ≤ 65535) (hpc : t.pc = s.pc + 1) (himem : t.imem = s.imem) :
    t.wordBeforePc = some w := by
  have hval := advance_pc_toNat hw hprog
  have hne : t.pc ≠ 0 := by
    intro h
    rw [← hpc, h] at hval
    simp at hval
  rw [State.wordBeforePc, if_neg hne, himem, hpc, hval]
  exact hw

/-- Settles O15, by the effects of a step: each status that stops the machine came of the fetched
instruction, which is the one before `pc`, or of a fetch outside the Program. -/
theorem stepKeepsStopExplained : Obligations.StepKeepsStopExplained := by
  intro s t hinv hstop hstep
  have himem := step_imem hstep
  cases step_effect hstep with
  | stopped => exact hstop
  | outOfProgram _ hw => exact fetch_eq_none.1 hw
  | illegal w why hrun hw hd =>
    exact ⟨w, wordBeforePc_of_advanced hw hinv.progFits rfl rfl, toOption_eq_none.2 ⟨why, hd⟩⟩
  | executed w i u hrun hw hd hu =>
    have hpc := (pcAfterStep s _ hrun hstep).2 w hw
    rw [hd] at hpc
    rcases exec_status hu (wf_of_decode hd) with he | ⟨rfl, he⟩ | ⟨rd, rfl, he⟩
    · rw [State.StopExplained, State.retire_status, he, State.advance_status, hrun]
      trivial
    · rw [State.StopExplained, State.retire_status, he]
      rw [← (decode_eq_halt_iff w).1 hd]
      exact wordBeforePc_of_advanced hw hinv.progFits hpc himem
    · have hin : ∃ w rd', (s.retire (.inp rd) u).wordBeforePc = some w ∧
          decode w = .legal (.inp rd') :=
        ⟨w, rd, wordBeforePc_of_advanced hw hinv.progFits hpc himem, hd⟩
      rcases he with ⟨he, -⟩ | ⟨he, -⟩ | ⟨he, -⟩ <;>
        · rw [State.StopExplained, State.retire_status, he]
          exact hin

/-- An execution that raises a fault has changed nothing but the status and what it took from the
input port. -/
theorem exec_fault_frame {i : Instr} {s t : State} {c : Cause} (h : exec i s = .next t)
    (hs : s.status = .running) (hc : t.status = .runtimeFault c) :
    t = { s with status := .runtimeFault c, input := t.input } := by
  cases exec_effect h with
  | boundsLd | boundsSt | endOfInput | malformed | outOfRange =>
    cases hc
    rfl
  | halt => cases hc
  | add | sub | and | or | xor | addi | load | store | beq | bne | jmp | value | output =>
    cases hs.symm.trans hc

/-- Settles O40: a fault came of an Illegal word or of an execution, and a step without a completed
instruction neither counts nor traces. -/
theorem faultLeavesStateAsLastMutated : Obligations.FaultLeavesStateAsLastMutated := by
  intro s t c hrun hstep hc
  refine ⟨?_, (onlyInAndOutTouchThePorts s t hstep).1⟩
  cases step_effect hstep with
  | stopped h => exact absurd hrun h
  | outOfProgram => cases hc
  | illegal =>
    cases hc
    rfl
  | executed w i u _ hw hd hu =>
    have hcu : u.status = .runtimeFault c := hc
    rw [State.retire_eq_ite, hcu, Status.isFault, if_pos rfl]
    exact exec_fault_frame hu hrun hcu

end Sys2Proof.Machine
end

section
/-! PROOFS. The statements about the data memory, 20_memory.md and 41_loadstore.md: its one list for
each content, the words of LD and ST (format M) with what each does (R130, R131), that nothing else
reaches it (R132), and that a load returns the latest store (R61). -/

namespace Sys2Proof

/-- The picture of a word of format M, whose fields between `a` and `k` must be zero, is the word
that the encoder builds from its opcode, field `a` and the address. -/
theorem decode_packFields_m (o : Opcode) {a : RegIdx} {k : BitVec 16} {i : Instr}
    (h : decode (opBits o ||| aBits a ||| kBits (mask16 (k.toNat : Int))) = .legal i) :
    decode (packFields o.number (regField a) 0 0 k) = .legal i := by
  rw [mask16_natCast] at h
  rw [show (0 : BitVec 5) = regField 0 from rfl, packFields_eq_joinWord, joinWord_ak, h]

/-- The value of a 16-bit field is an address of the data space. -/
theorem addrInRange_toNat (k : BitVec 16) : addrInRange (k.toNat : Int) = true := by
  have hk := k.isLt
  simp only [addrInRange, Bool.and_eq_true, decide_eq_true_eq]
  omega

end Sys2Proof

namespace Sys2Proof.Machine

/-! ### Reads and the canonical form -/

/-- A canonical memory whose first entry is at `a` reads something there. -/
theorem Memory.read_head_ne_unlisted {lo a : Nat} {v : Word} {m : Memory}
    (h : Memory.wfFrom lo ((a, v) :: m) = true) :
    Memory.read ((a, v) :: m) a ≠ Memory.unlisted := by
  rw [Memory.read, if_pos rfl]
  exact (Memory.wfFrom_cons.1 h).2.2.1

/-- The tail of a canonical memory reads as the memory above the first entry, and as nothing up to
it. -/
theorem Memory.read_tail {lo a : Nat} {v : Word} {m : Memory}
    (h : Memory.wfFrom lo ((a, v) :: m) = true) (b : Nat) :
    m.read b = if b ≤ a then Memory.unlisted else Memory.read ((a, v) :: m) b := by
  split
  · next hb => exact Memory.read_below (Memory.wfFrom_cons.1 h).2.2.2 (by omega)
  · next hb => rw [Memory.read, if_neg (by omega)]

/-- Canonical memories that read alike are equal: each lists its first address, so the first entries
agree, and then the tails read alike. -/
theorem Memory.eq_of_read_eq {lo : Nat} : ∀ {m m' : Memory}, m.wfFrom lo = true →
    m'.wfFrom lo = true → (∀ a, a < 65536 → m.read a = m'.read a) → m = m'
  | [], [], _, _, _ => rfl
  | [], (b, w) :: m', _, h', hr =>
    absurd (hr b (Memory.wfFrom_cons.1 h').2.1).symm (Memory.read_head_ne_unlisted h')
  | (a, v) :: m, [], h, _, hr =>
    absurd (hr a (Memory.wfFrom_cons.1 h).2.1) (Memory.read_head_ne_unlisted h)
  | (a, v) :: m, (b, w) :: m', h, h', hr => by
    obtain ⟨-, ha, -, hm⟩ := Memory.wfFrom_cons.1 h
    obtain ⟨-, hb, -, hm'⟩ := Memory.wfFrom_cons.1 h'
    have hle : b ≤ a := by
      by_contra hlt
      refine Memory.read_head_ne_unlisted h ((hr a ha).trans ?_)
      rw [Memory.read, if_neg (by omega), Memory.read_below hm' (by omega)]
    have hge : a ≤ b := by
      by_contra hlt
      refine Memory.read_head_ne_unlisted h' ((hr b hb).symm.trans ?_)
      rw [Memory.read, if_neg (by omega), Memory.read_below hm (by omega)]
    obtain rfl : a = b := by omega
    have hv := hr a ha
    rw [Memory.read, if_pos rfl, Memory.read, if_pos rfl] at hv
    rw [hv, Memory.eq_of_read_eq hm hm' fun c hc => by
      rw [Memory.read_tail h, Memory.read_tail h', hr c hc]]

/-- Settles O33: the canonical form begins at address 0. -/
theorem equalReadsMeanEqualMemories : Obligations.EqualReadsMeanEqualMemories :=
  fun _ _ => Memory.eq_of_read_eq

/-! ### LD and ST -/

/-- Settles O30: the effect of a LD in range, and its fault outside, where it is not well-formed. -/
theorem ldReadsTheWordAtTheAddress : Obligations.LdReadsTheWordAtTheAddress := by
  refine fun rd s => ⟨fun k => ?_, fun addr hout => ?_⟩
  · have hin := addrInRange_toNat k
    exact ⟨decode_packFields_m .ld (Laws.RoundTrip.ld rd _ hin), _,
      exec_of_effect (.load rd _ _ (effectiveAddr_of_inRange hin)),
      s.onlyRegister_writeReg rd _, s.readReg_writeReg rd _⟩
  · have hnone := effectiveAddr_eq_none.2 hout
    refine ⟨exec_of_effect (.boundsLd rd addr hnone), fun w hd => ?_⟩
    rw [effectiveAddr_of_inRange (wf_of_decode hd)] at hnone
    cases hnone

/-- A store leaves everything but the Word at its address as it was. -/
theorem State.onlyMemory_memWrite (s : State) (a : Nat) (v : Word) :
    s.OnlyMemory a (s.memWrite a v) :=
  ⟨rfl, fun _ hb => s.memRead_memWrite_ne hb v⟩

/-- Settles O31: the effect of a ST in range, and its fault outside, where it is not well-formed. -/
theorem stStoresTheWordAtTheAddress : Obligations.StStoresTheWordAtTheAddress := by
  refine fun rs s hwf => ⟨fun k => ?_, fun addr a ha => ?_, fun addr hout => ?_⟩
  · have hin := addrInRange_toNat k
    exact ⟨decode_packFields_m .st (Laws.RoundTrip.st rs _ hin), effectiveAddr_of_inRange hin⟩
  · exact ⟨_, exec_of_effect (.store rs addr a ha), s.onlyMemory_memWrite a _,
      State.memRead_memWrite_self hwf a _⟩
  · have hnone := effectiveAddr_eq_none.2 hout
    refine ⟨hnone, exec_of_effect (.boundsSt rs addr hnone), fun w hd => ?_⟩
    rw [effectiveAddr_of_inRange (wf_of_decode hd)] at hnone
    cases hnone

/-! ### Nothing else reaches the data memory -/

/-- An execution leaves the data memory as it was, or it is that of a ST in range and stores its
register's Word. -/
theorem exec_dmem {i : Instr} {s t : State} (h : exec i s = .next t) :
    t.dmem = s.dmem ∨ ∃ rs addr a, i = .st rs addr ∧ effectiveAddr addr = some a ∧
      t.dmem = s.dmem.write a (s.readReg rs) := by
  cases exec_effect h with
  | store rs addr a ha => exact .inr ⟨rs, addr, a, rfl, ha, rfl⟩
  | add | sub | and | or | xor | addi | load | boundsLd | boundsSt | beq | bne | jmp | value
  | endOfInput | malformed | outOfRange | output | halt => exact .inl rfl

/-- The effect of an execution of another instruction than LD and ST is the same with another data
memory in place. -/
theorem ExecEffect.with_dmem {s t : State} {i : Instr} (h : ExecEffect s i t) (m : Memory)
    (hld : i.opcode ≠ .ld) (hst : i.opcode ≠ .st) :
    ExecEffect { s with dmem := m } i { t with dmem := m } := by
  cases h with
  | load | boundsLd => exact absurd rfl hld
  | store | boundsSt => exact absurd rfl hst
  | add | sub | and | or | xor | addi | beq | bne | jmp | output | halt => constructor
  | value rd v rest h | endOfInput rd rest h | malformed rd rest h | outOfRange rd rest h =>
    constructor
    exact h

/-- Settles O20, by the data memory's part in an execution and its effects in another one. -/
theorem onlyLdAndStReachDataMemory : Obligations.OnlyLdAndStReachDataMemory := by
  refine ⟨fun i s t h hst => ?_, fun i s t m h hld hst =>
    exec_of_effect ((exec_effect h).with_dmem m hld hst)⟩
  rcases exec_dmem h with hsame | ⟨rs, addr, a, rfl, -, -⟩
  · exact hsame
  · exact absurd rfl hst

/-! ### A load after a store -/

/-- A step that executes an instruction is its execution in the state with `pc` advanced, and then
the end of the step. -/
theorem step_of_executes {s t : State} {i : Instr} (hi : s.Executes i) (h : step s = .next t) :
    ∃ u, exec i s.advance = .next u ∧ t = s.retire i u := by
  obtain ⟨hrun, w, hw, hd⟩ := hi
  rw [step_of_legal hrun hw hd] at h
  rcases exec_cases i s.advance with ⟨u, hu, -⟩ | ⟨-, -, -, hf⟩
  · rw [hu] at h
    cases h
    exact ⟨u, hu, rfl⟩
  · rw [hf] at h
    cases h

/-- A step that executes no ST to address `a` leaves the Word there. -/
theorem step_memRead_of_no_store {s t : State} {a : Nat} (h : step s = .next t)
    (hno : ∀ rs, ¬ s.Executes (.st rs (a : Int))) : t.memRead a = s.memRead a := by
  cases step_effect h with
  | stopped | outOfProgram | illegal => rfl
  | executed w i u hrun hw hd hu =>
    rcases exec_dmem hu with hsame | ⟨rs, addr, b, rfl, hb, hwrite⟩
    · exact congrArg (Memory.read · a) hsame
    · obtain rfl := (effectiveAddr_eq_some.1 hb).1
      have hne : a ≠ b := fun e => hno rs ⟨hrun, w, hw, e ▸ hd⟩
      rw [State.memRead_eq, State.retire_dmem, hwrite]
      exact Memory.read_write_ne _ hne s.dmem

/-- A run none of whose steps executes a ST to address `a` leaves the Word there. -/
theorem run_memRead_of_no_store {n a : Nat} {s t : State} (h : Sys2Proof.core.run n s = .next t)
    (hno : ∀ m v rs, m < n → Sys2Proof.core.run m s = .next v → ¬ v.Executes (.st rs (a : Int))) :
    t.memRead a = s.memRead a := by
  induction n generalizing s with
  | zero =>
    cases h
    rfl
  | succ n ih =>
    obtain ⟨u, hstep, hrun⟩ := run_succ_eq_next h
    have hrest : t.memRead a = u.memRead a := ih hrun fun m v rs hm hv =>
      hno (m + 1) v rs (by omega) ((run_succ_of_next hstep m).trans hv)
    exact hrest.trans (step_memRead_of_no_store hstep fun rs =>
      hno 0 s rs (Nat.succ_pos n) (run_zero s))

/-- After a step that executes a ST, its address holds the register's Word. -/
theorem step_memRead_of_store {s t : State} {rs : RegIdx} {k : BitVec 16} (hwf : s.dmem.wf = true)
    (hst : s.Executes (.st rs (k.toNat : Int))) (h : step s = .next t) :
    t.memRead k.toNat = s.readReg rs := by
  obtain ⟨u, hu, rfl⟩ := step_of_executes hst h
  rw [exec_of_effect (.store rs _ _ (effectiveAddr_of_inRange (addrInRange_toNat k)))] at hu
  cases hu
  exact State.memRead_memWrite_self (s := s.advance) hwf _ _

/-- After a step that executes a LD, its register holds the Word at its address. -/
theorem step_readReg_of_load {s t : State} {rd : RegIdx} {k : BitVec 16}
    (hld : s.Executes (.ld rd (k.toNat : Int))) (h : step s = .next t) :
    t.readReg rd = if rd = 0 then 0 else s.memRead k.toNat := by
  obtain ⟨u, hu, rfl⟩ := step_of_executes hld h
  rw [exec_of_effect (.load rd _ _ (effectiveAddr_of_inRange (addrInRange_toNat k)))] at hu
  cases hu
  exact s.advance.readReg_writeReg rd _

/-- Settles O32: the store puts the Word at the address, the steps between leave it there, and the
load reads it. -/
theorem loadReturnsTheLatestStore : Obligations.LoadReturnsTheLatestStore := by
  intro s s₁ t u rs rd k n hinv hst hstep hrun hno hld hlast
  rw [step_readReg_of_load hld hlast,
    run_memRead_of_no_store hrun hno,
    step_memRead_of_store hinv.memWf hst hstep]

end Sys2Proof.Machine
end

section
/-! PROOFS. The statements about a run as the host sees it, 60_exceptions.md sections 5 and 6 and
70_reset_and_hazards.md: the wait for input (R199), the trace (R181 to R183), the count (R184), the
driver (R185, R198). -/

namespace Sys2Proof.Machine

/-! ### The wait for input -/

/-- A waiting machine's step answers the stuck state. -/
theorem step_of_waits {s : State} (h : s.WaitsForInput) : step s = .fault .awaitingInput := by
  obtain ⟨hrun, hin, w, rd, hw, hd⟩ := h
  have hexec : exec (.inp rd) s.advance = .fault .awaitingInput :=
    exec_eq_fault_iff.2 ⟨⟨rd, rfl⟩, hin⟩
  rw [step_of_legal hrun hw hd, hexec]
  rfl

/-- A step completes unless it waits. -/
theorem safe_iff (s : State) : s.Safe ↔ ¬ s.WaitsForInput := by
  constructor
  · rintro ⟨t, ht⟩ hwait
    cases ht.symm.trans (step_of_waits hwait)
  · intro hno
    rcases step_cases s with ⟨t, ht, -⟩ | ⟨hwait, -⟩
    · exact ⟨t, ht⟩
    · exact absurd hwait hno

/-- Settles O18: a machine with an answer on its port does not wait. -/
theorem stepWaitsOnlyForInput : Obligations.StepWaitsOnlyForInput := by
  refine fun s => ⟨by rw [safe_iff, not_not], fun hwait => ⟨step_of_waits hwait, fun r rest => ?_⟩⟩
  exact (safe_iff _).2 fun ⟨_, hnil, _⟩ => List.cons_ne_nil r rest hnil

/-! ### The trace -/

/-- The registers of a changed set, in their order. -/
theorem map_fst_changedRegs (s t : State) : (changedRegs s t).map Prod.fst =
    (List.finRange 32).filter fun r => s.readReg r ≠ t.readReg r := by
  rw [changedRegs, List.map_filterMap, ← List.filterMap_eq_filter]
  congr 1
  funext r
  by_cases h : s.readReg r = t.readReg r <;> simp [h, Option.guard]

/-- A changed set holds exactly the registers whose values differ, with the new ones. -/
theorem mem_changedRegs {s t : State} {r : RegIdx} {v : Word} :
    (r, v) ∈ changedRegs s t ↔ t.readReg r ≠ s.readReg r ∧ v = t.readReg r := by
  rw [changedRegs, List.mem_filterMap]
  constructor
  · rintro ⟨q, -, hq⟩
    split at hq
    · cases hq
    · next hne =>
      cases hq
      exact ⟨Ne.symm hne, rfl⟩
  · rintro ⟨hne, rfl⟩
    exact ⟨r, List.mem_finRange r, if_neg (Ne.symm hne)⟩

/-- A register that alone may differ makes a changed set of at most one element. -/
theorem changedRegs_length_le_one {s t : State} {rd : RegIdx}
    (h : ∀ r, r ≠ rd → t.readReg r = s.readReg r) : (changedRegs s t).length ≤ 1 := by
  have hnodup : ((changedRegs s t).map Prod.fst).Nodup := by
    rw [map_fst_changedRegs]
    exact (List.nodup_finRange 32).filter _
  have hall : ∀ q ∈ (changedRegs s t).map Prod.fst, q = rd := by
    intro q hq
    obtain ⟨⟨r, v⟩, hp, rfl⟩ := List.mem_map.1 hq
    by_contra hne
    exact (mem_changedRegs.1 hp).1 (h r hne)
  rw [List.eq_replicate_of_mem hall, List.nodup_replicate, List.length_map] at hnodup
  exact hnodup

/-- Register 0 is in no changed set. -/
theorem ne_zero_of_mem_changedRegs {s t : State} {p : RegIdx × Word} (h : p ∈ changedRegs s t) :
    p.1 ≠ 0 := by
  intro hzero
  refine (mem_changedRegs (r := p.1) (v := p.2).1 h).1 ?_
  rw [hzero, State.readReg_zero, State.readReg_zero]

/-- An execution changes at most one register (60_exceptions.md R183). -/
theorem exec_changedRegs_length {i : Instr} {s t : State} (h : exec i s.advance = .next t) :
    (changedRegs s t).length ≤ 1 := by
  refine changedRegs_length_le_one (rd := i.dest?.getD 0) fun r hr =>
    exec_readReg_of_ne_dest h fun hdest => hr ?_
  rw [← hdest]
  rfl

/-- Settles O16: the one record that a step can add is of the word it fetched. -/
theorem stepKeepsTraceSound : Obligations.StepKeepsTraceSound := by
  intro s t hsound hstep
  cases step_effect hstep with
  | stopped | outOfProgram | illegal => exact hsound
  | executed w i u hrun hw hd hu =>
    obtain ⟨himem, -, htrace, -⟩ := exec_host_frame hu
    rw [State.advance_imem] at himem
    rw [State.advance_trace] at htrace
    intro r hr
    rw [State.retire_imem, himem]
    rw [State.retire_trace, htrace] at hr
    split at hr
    · rcases List.mem_append.1 hr with hold | hnew
      · exact hsound r hold
      · obtain rfl := List.mem_singleton.1 hnew
        exact ⟨⟨w, hw, hd⟩, exec_changedRegs_length hu, fun p hp => ne_zero_of_mem_changedRegs hp⟩
    · exact hsound r hr

/-! ### Tracing affects nothing -/

/-- The state with another trace enable and other records. -/
def State.withTrace (s : State) (en : Bool) (tr : List TraceRec) : State :=
  { s with traceEn := en, trace := tr }

/-- States alike but for tracing differ by a change of the two fields. -/
theorem State.sameButTrace_iff {s t : State} :
    s.SameButTrace t ↔ ∃ en tr, t = s.withTrace en tr := by
  constructor
  · intro h
    exact ⟨t.traceEn, t.trace, h⟩
  · rintro ⟨en, tr, rfl⟩
    rfl

/-- The effect of an execution is the same whatever the trace: its condition and its result read
neither the enable nor the records. -/
theorem ExecEffect.with_trace {s t : State} {i : Instr} (h : ExecEffect s i t) (en : Bool)
    (tr : List TraceRec) : ExecEffect (s.withTrace en tr) i (t.withTrace en tr) := by
  cases h with
  | add | sub | and | or | xor | addi | beq | bne | jmp | output | halt => constructor
  | load rd addr a h | store rs addr a h | boundsLd rd addr h | boundsSt rs addr h =>
    constructor
    exact h
  | value rd v rest h | endOfInput rd rest h | malformed rd rest h | outOfRange rd rest h =>
    constructor
    exact h

/-- The end of a step does the same to states alike but for tracing, but for tracing. -/
theorem State.retire_withTrace (s t : State) (i : Instr) (en : Bool) (tr : List TraceRec) :
    State.SameButTrace (s.retire i t) ((s.withTrace en tr).retire i (t.withTrace en tr)) := rfl

/-- A step that begins outside the Program reports it. -/
theorem step_of_outOfProgram {s : State} (h : s.status = .running) (hw : s.fetch = none) :
    step s = .next (s.setStatus .outOfProgram) := by
  rw [step_of_running h, hw]

/-- A step does the same, but for tracing, in states alike but for tracing. -/
theorem step_of_sameButTrace {s₁ s₂ t₁ : State} (h : s₁.SameButTrace s₂) (ht : step s₁ = .next t₁) :
    ∃ t₂, step s₂ = .next t₂ ∧ State.SameButTrace t₁ t₂ := by
  obtain ⟨en, tr, rfl⟩ := State.sameButTrace_iff.1 h
  cases step_effect ht with
  | stopped hs => exact ⟨_, step_of_stopped hs, rfl⟩
  | outOfProgram hs hw =>
    exact ⟨_, step_of_outOfProgram (s := s₁.withTrace en tr) hs hw, rfl⟩
  | illegal w why hs hw hd => exact ⟨_, step_of_illegal hs hw hd, rfl⟩
  | executed w i u hs hw hd hu =>
    have hu₂ := exec_of_effect ((exec_effect hu).with_trace en tr)
    refine ⟨_, ?_, State.retire_withTrace s₁ u i en tr⟩
    rw [step_of_legal (s := s₁.withTrace en tr) hs hw hd]
    exact congrArg (finishStep _ i) hu₂

/-- A machine waits whatever the trace. -/
theorem waits_of_sameButTrace {s₁ s₂ : State} (h : s₁.SameButTrace s₂) (hwait : s₁.WaitsForInput) :
    s₂.WaitsForInput := by
  obtain ⟨en, tr, rfl⟩ := State.sameButTrace_iff.1 h
  exact hwait

/-- No step changes the trace enable. -/
theorem step_traceEn {s t : State} (h : step s = .next t) : t.traceEn = s.traceEn := by
  cases step_effect h with
  | stopped | outOfProgram | illegal => rfl
  | executed w i u _ _ _ hu =>
    obtain ⟨-, hen, -, -⟩ := exec_host_frame hu
    exact hen

/-- Runs from states alike but for tracing pass through states alike but for tracing, with the
enable each began with. -/
theorem run_of_sameButTrace {n : Nat} {s₁ s₂ t₁ : State} (h : s₁.SameButTrace s₂)
    (ht : Sys2Proof.core.run n s₁ = .next t₁) : t₁.traceEn = s₁.traceEn ∧
      ∃ t₂, Sys2Proof.core.run n s₂ = .next t₂ ∧ State.SameButTrace t₁ t₂ := by
  induction n generalizing s₁ s₂ with
  | zero =>
    cases ht
    exact ⟨rfl, s₂, run_zero s₂, h⟩
  | succ n ih =>
    obtain ⟨u₁, hstep, hrun⟩ := run_succ_eq_next ht
    obtain ⟨u₂, hstep₂, hu⟩ := step_of_sameButTrace h hstep
    obtain ⟨hen, t₂, hrun₂, htt⟩ := ih hu hrun
    exact ⟨hen.trans (step_traceEn hstep), t₂, (run_succ_of_next hstep₂ n).trans hrun₂, htt⟩

/-- Runs from states alike but for tracing wait at the same step. -/
theorem run_fault_of_sameButTrace {n : Nat} {s₁ s₂ : State} {f : Fault} (h : s₁.SameButTrace s₂)
    (hf : Sys2Proof.core.run n s₁ = .fault f) : Sys2Proof.core.run n s₂ = .fault f := by
  induction n generalizing s₁ s₂ with
  | zero => cases hf
  | succ n ih =>
    rcases step_cases s₁ with ⟨u₁, hstep, -⟩ | ⟨hwait, hstep⟩
    · obtain ⟨u₂, hstep₂, hu⟩ := step_of_sameButTrace h hstep
      rw [run_succ_of_next hstep] at hf
      rw [run_succ_of_next hstep₂]
      exact ih hu hf
    · rw [run_succ_of_fault hstep] at hf
      rw [run_succ_of_fault (step_of_waits (waits_of_sameButTrace h hwait)), hf]

/-- Settles O17, for next states and for waits by induction on the number of steps. -/
theorem traceNeverAffectsTheMachine : Obligations.TraceNeverAffectsTheMachine :=
  ⟨fun _ _ => rfl, fun _ _ _ h =>
    ⟨fun _ ht => run_of_sameButTrace h ht, fun _ hf => run_fault_of_sameButTrace h hf⟩⟩

/-! ### What a step counts and records -/

/-- A step that executes no instruction neither counts nor traces. -/
theorem step_without_instruction {s t : State} (h : step s = .next t)
    (hno : ∀ i, ¬ s.Executes i) : t.count = s.count ∧ t.trace = s.trace := by
  cases step_effect h with
  | stopped | outOfProgram | illegal => exact ⟨rfl, rfl⟩
  | executed w i u hrun hw hd _ => exact absurd ⟨hrun, w, hw, hd⟩ (hno i)

/-- A step that executes an instruction counts it unless it raised a fault. -/
theorem step_count {s t : State} {i : Instr} (hi : s.Executes i) (h : step s = .next t) :
    t.count = if t.status.isFault then s.count else s.count + 1 := by
  obtain ⟨u, hu, rfl⟩ := step_of_executes hi h
  obtain ⟨-, -, -, hcount⟩ := exec_host_frame hu
  rw [State.retire_count, State.retire_status, hcount, State.advance_count]

/-- A step that executes an instruction records it where tracing is on, unless it raised a fault. -/
theorem step_trace {s t : State} {i : Instr} (hi : s.Executes i) (h : step s = .next t) :
    t.trace = if !t.status.isFault && s.traceEn then s.trace ++ [⟨s.pc, i, changedRegs s t⟩]
      else s.trace := by
  obtain ⟨u, hu, rfl⟩ := step_of_executes hi h
  obtain ⟨-, hen, htrace, -⟩ := exec_host_frame hu
  rw [State.retire_trace, State.retire_status, hen, htrace]
  rfl

/-- A stopped machine executes no instruction. -/
theorem not_executes_of_stopped {s : State} (h : s.Stopped) (i : Instr) : ¬ s.Executes i :=
  fun ⟨hrun, _⟩ => h hrun

/-- Outside the Program no instruction is executed. -/
theorem not_executes_of_fetch_none {s : State} (h : s.fetch = none) (i : Instr) :
    ¬ s.Executes i := fun ⟨_, _, hw, _⟩ => nomatch h.symm.trans hw

/-- An Illegal word is no instruction. -/
theorem not_executes_of_illegal {s : State} (h : s.ExecutesIllegal) (i : Instr) :
    ¬ s.Executes i := by
  obtain ⟨-, w, hw, hd⟩ := h
  rintro ⟨-, w', hw', hd'⟩
  obtain rfl : w = w' := Option.some.inj (hw.symm.trans hw')
  rw [hd'] at hd
  cases hd

/-- Settles O45: the record's changed set is that between the states before and after the step. -/
theorem traceRecordPerCompletedInstruction : Obligations.TraceRecordPerCompletedInstruction := by
  refine fun s t hstep => ⟨fun hnone => ?_, fun i hen hok hi => ?_⟩
  · by_cases hex : ∃ i, s.Executes i
    · obtain ⟨i, hi⟩ := hex
      rw [step_trace hi hstep]
      rcases hnone with hoff | hfault | hstop | hout
      · simp [hoff]
      · simp [hfault]
      · exact absurd hi (not_executes_of_stopped hstop i)
      · exact absurd hi (not_executes_of_fetch_none hout i)
    · exact (step_without_instruction hstep fun i hi => hex ⟨i, hi⟩).2
  · refine ⟨changedRegs s t, ?_, fun r v => mem_changedRegs⟩
    rw [step_trace hi hstep, hok, hen]
    rfl

/-! ### The driver -/

/-- Where the driver's loop ends: after at most its ceiling of steps it stops, in a state that has
stopped or after exactly the ceiling, or it finds a step that waits. -/
theorem runFor_cases (n : Nat) (s : State) : ∃ m t, m ≤ n ∧ Sys2Proof.core.run m s = .next t ∧
    (((t.status ≠ .running ∨ m = n) ∧ runFor n s = runResult t) ∨
      (m < n ∧ t.WaitsForInput ∧ runFor n s = .waiting t)) := by
  induction n generalizing s with
  | zero => exact ⟨0, s, Nat.le_refl 0, run_zero s, .inl ⟨.inr rfl, rfl⟩⟩
  | succ n ih =>
    by_cases hrun : s.status = .running
    · rcases step_cases s with ⟨u, hu, -⟩ | ⟨hwait, hf⟩
      · obtain ⟨m, t, hm, ht, hend⟩ := ih u
        refine ⟨m + 1, t, by omega, (run_succ_of_next hu m).trans ht, ?_⟩
        rw [runFor_next hrun hu]
        rcases hend with ⟨hstop, hres⟩ | ⟨hlt, hwait, hres⟩
        · exact .inl ⟨hstop.imp_right (congrArg (· + 1)), hres⟩
        · exact .inr ⟨by omega, hwait, hres⟩
      · exact ⟨0, s, Nat.zero_le _, run_zero s,
          .inr ⟨Nat.succ_pos n, hwait, runFor_wait hrun hf⟩⟩
    · exact ⟨0, s, Nat.zero_le _, run_zero s, .inl ⟨.inl hrun, runFor_stop (.inl hrun)⟩⟩

/-- The driver returns the count of the state it stops in, which has no fault. -/
theorem runResult_eq_returned {s t : State} {c : Nat} (h : runResult s = .returned c t) :
    s = t ∧ c = t.count ∧
      (t.status = .halted ∨ t.status = .outOfProgram ∨ t.status = .running) := by
  rcases runResult_cases s with ⟨d, -, hres⟩ | ⟨hst, hres⟩
  · cases hres.symm.trans h
  · cases hres.symm.trans h
    exact ⟨rfl, rfl, hst⟩

/-- The driver leaves by the fault of the state it stops in. -/
theorem runResult_eq_faulted {s t : State} {c : Cause} (h : runResult s = .faulted c t) :
    s = t ∧ t.status = .runtimeFault c := by
  rcases runResult_cases s with ⟨d, hst, hres⟩ | ⟨-, hres⟩
  · cases hres.symm.trans h
    exact ⟨rfl, hst⟩
  · cases hres.symm.trans h

/-- The driver does not wait in a state it stops in. -/
theorem runResult_ne_waiting (s t : State) : runResult s ≠ .waiting t := by
  intro h
  rcases runResult_cases s with ⟨d, -, hres⟩ | ⟨-, hres⟩ <;> cases hres.symm.trans h

/-- When the driver returns. -/
theorem runFor_returned {n c : Nat} {s t : State} (h : runFor n s = .returned c t) :
    c = t.count ∧ ∃ m, m ≤ n ∧ Sys2Proof.core.run m s = .next t ∧
      (t.status = .halted ∨ t.status = .outOfProgram ∨ (t.status = .running ∧ m = n)) := by
  obtain ⟨m, u, hm, hu, ⟨hstop, hres⟩ | ⟨-, -, hres⟩⟩ := runFor_cases n s
  · obtain ⟨rfl, hc, hst⟩ := runResult_eq_returned (hres.symm.trans h)
    refine ⟨hc, m, hm, hu, hst.imp_right (Or.imp_right fun hrun => ⟨hrun, ?_⟩)⟩
    exact hstop.resolve_left (not_not_intro hrun)
  · cases hres.symm.trans h

/-- When the driver leaves by a fault. -/
theorem runFor_faulted {n : Nat} {c : Cause} {s t : State} (h : runFor n s = .faulted c t) :
    ∃ m, m ≤ n ∧ Sys2Proof.core.run m s = .next t ∧ t.status = .runtimeFault c := by
  obtain ⟨m, u, hm, hu, ⟨-, hres⟩ | ⟨-, -, hres⟩⟩ := runFor_cases n s
  · obtain ⟨rfl, hst⟩ := runResult_eq_faulted (hres.symm.trans h)
    exact ⟨m, hm, hu, hst⟩
  · cases hres.symm.trans h

/-- When the driver waits. -/
theorem runFor_waiting {n : Nat} {s t : State} (h : runFor n s = .waiting t) :
    ∃ m, m < n ∧ Sys2Proof.core.run m s = .next t ∧ t.WaitsForInput := by
  obtain ⟨m, u, -, hu, ⟨-, hres⟩ | ⟨hm, hwait, hres⟩⟩ := runFor_cases n s
  · exact absurd (hres.symm.trans h) (runResult_ne_waiting u t)
  · cases hres.symm.trans h
    exact ⟨m, hm, hu, hwait⟩

/-- Settles O46, by where the driver's loop ends. -/
theorem runStopsWhereTheDriverSays : Obligations.RunStopsWhereTheDriverSays :=
  fun _ _ => ⟨fun _ _ h => (runFor_returned h).2, fun _ _ h => runFor_faulted h,
    fun _ h => runFor_waiting h⟩

/-- Settles O44: a step that executes no instruction leaves the count, any other counts it unless it
faulted, and the driver returns the count. -/
theorem countIsOfCompletedInstructions : Obligations.CountIsOfCompletedInstructions := by
  refine ⟨rfl, fun s t hstep => ⟨fun hno => ?_, fun i hi => step_count hi hstep⟩,
    fun n c s t h => (runFor_returned h).1⟩
  refine (step_without_instruction hstep ?_).1
  rcases hno with hstop | hout | hill
  · exact not_executes_of_stopped hstop
  · exact not_executes_of_fetch_none hout
  · exact not_executes_of_illegal hill

/-- The driver returns silently from a Running state. -/
theorem runResult_of_running {s : State} (h : s.status = .running) :
    runResult s = .returned s.count s := by
  simp only [runResult, h]

/-- Where tracing is off, a step at a JMP to its own index counts and does nothing else. -/
theorem step_selfJump {s : State} (h : s.Executes (.jmp s.pc)) (hoff : s.traceEn = false) :
    step s = .next { s with count := s.count + 1 } := by
  obtain ⟨hrun, w, hw, hd⟩ := h
  rw [step_of_legal hrun hw hd, exec_of_effect (.jmp s.pc), finishStep, State.retire_eq_ite]
  simp [hrun, Status.isFault, hoff, State.setPc, State.advance]

/-- Settles O47, by induction on the ceiling: the state after one pass is about to execute the same
jump. -/
theorem selfJumpRunsToTheCeiling : Obligations.SelfJumpRunsToTheCeiling := by
  intro n
  induction n with
  | zero =>
    rintro s ⟨hrun, -⟩ -
    exact (runFor_stop (.inr rfl)).trans (runResult_of_running hrun)
  | succ n ih =>
    intro s hexec hoff
    rw [runFor_next hexec.1 (step_selfJump hexec hoff),
      ih { s with count := s.count + 1 } hexec hoff]
    simp only [Nat.add_assoc, Nat.add_comm 1 n]

end Sys2Proof.Machine
end

section
/-! PROOFS. The statements about literals and the text adaptors, 30_encoding.md R110 and 43_io.md
R143, R147: the parser accepts the grammar, and the input adaptor reads what the output adaptor prints. -/

namespace Sys2Proof

/-- A literal without white space around it, trimmed out of any, is the token it is. -/
theorem trim_of_token {before core after : Text} {n : Int} (hcore : parseToken core = some n)
    (hspace : ∀ c ∈ before ++ after, c ∈ whiteSpace) : trim (before ++ core ++ after) = core := by
  obtain ⟨hne, hchars⟩ := parseToken_chars hcore
  have hsp : ∀ c ∈ before ++ after, isSpace c = true := fun c hc => (isSpace_iff c).2 (hspace c hc)
  exact trim_append (fun c hc => hsp c (List.mem_append_left _ hc))
    (fun c hc => hsp c (List.mem_append_right _ hc)) hne
    (fun c hc => hchars c (List.mem_of_head? hc)) (fun c hc => hchars c (List.mem_of_getLast? hc))

/-- The parser reads exactly the literals of the grammar, with their values. -/
theorem parseLiteral_eq_some_iff {t : Text} {n : Int} :
    parseLiteral t = some n ↔ IsLiteral t n := by
  constructor
  · intro h
    obtain ⟨before, after, ht, hb, ha⟩ := trim_decomp t
    obtain ⟨sign, body, m, hbody, hm, hsign⟩ := parseToken_eq_some.1 h
    obtain ⟨pre, ds, rfl, hdigits⟩ := parseMagnitude_eq_some.1 hm
    refine ⟨before, sign, pre, ds, after, m, ?_, fun c hc => (isSpace_iff c).1 ?_, hsign, hdigits⟩
    · rw [hbody] at ht
      simpa only [List.append_assoc] using ht
    · exact (List.mem_append.1 hc).elim (hb c) (ha c)
  · rintro ⟨before, sign, pre, ds, after, m, rfl, hspace, hsign, hdigits⟩
    have hm := parseMagnitude_eq_some.2 ⟨pre, ds, rfl, hdigits⟩
    have htoken := parseToken_eq_some.2 ⟨sign, pre ++ ds, m, rfl, hm, hsign⟩
    rw [show before ++ sign ++ pre ++ ds ++ after = before ++ (sign ++ (pre ++ ds)) ++ after by
      simp only [List.append_assoc], parseLiteral, trim_of_token htoken hspace, htoken]

/-- Settles O48: trimming, sign, magnitude and digits each follow the grammar. -/
theorem literalGrammarIsExactlyParsed : Obligations.LiteralGrammarIsExactlyParsed :=
  fun _ _ => parseLiteral_eq_some_iff

/-- The range check, as the two comparisons. -/
theorem inImmRange_iff (n : Int) : inImmRange n = true ↔ -32768 ≤ n ∧ n ≤ 65535 := by
  simp only [inImmRange, Bool.and_eq_true, decide_eq_true_eq]

end Sys2Proof

namespace Sys2Proof.Machine

/-- A literal is answered with its masked value in range, and with OutOfRange outside. -/
theorem lineResponse_of_literal {t : Text} {n : Int} (h : IsLiteral t n) :
    lineResponse t = if -32768 ≤ n ∧ n ≤ 65535 then .value (mask16 n) else .outOfRange := by
  simp only [lineResponse, parseLiteral_eq_some_iff.2 h, inImmRange_iff]

/-- A line that is no literal is answered with Malformed. -/
theorem lineResponse_of_not_literal {t : Text} (h : ¬ ∃ n, IsLiteral t n) :
    lineResponse t = .malformed := by
  rcases hp : parseLiteral t with _ | n
  · simp only [lineResponse, hp]
  · exact absurd ⟨n, parseLiteral_eq_some_iff.1 hp⟩ h

/-- No line is answered with EndOfInput. -/
theorem lineResponse_ne_endOfInput (t : Text) : lineResponse t ≠ .endOfInput := by
  by_cases h : ∃ n, IsLiteral t n
  · obtain ⟨n, hn⟩ := h
    rw [lineResponse_of_literal hn]
    split <;> simp
  · simp [lineResponse_of_not_literal h]

/-- The port takes an answer that is not EndOfInput. -/
theorem inPort_of_cons {s : State} {r : InResp} {rest : List InResp} (h : s.input = r :: rest)
    (hr : r ≠ .endOfInput) : s.inPort = some (r, { s with input := rest }) := by
  cases r with
  | endOfInput => exact absurd rfl hr
  | value v | malformed | outOfRange => simp only [State.inPort, h]

/-- The port keeps the answer EndOfInput. -/
theorem inPort_of_endOfInput {s : State} {rest : List InResp} (h : s.input = .endOfInput :: rest) :
    s.inPort = some (.endOfInput, s) := by
  simp only [State.inPort, h]

/-- Settles O49: the port and the adaptor both go by whether a line is left, and a line's answer is
that of its literal. -/
theorem inPortAnswersAsTheAdaptor : Obligations.InPortAnswersAsTheAdaptor := by
  refine ⟨fun s lines h => ?_, fun lines => ?_, fun t rest => ⟨fun h => ?_, fun n h => ?_⟩⟩
  · cases lines with
    | nil =>
      rw [inPort_of_endOfInput h, inAdaptor, ← h]
    | cons line rest => exact inPort_of_cons h (lineResponse_ne_endOfInput line)
  · cases lines with
    | nil => simp [inAdaptor]
    | cons line rest => simp [inAdaptor, lineResponse_ne_endOfInput]
  · rw [inAdaptor, lineResponse_of_not_literal h]
  · rw [inAdaptor, lineResponse_of_literal h]
    rfl

/-- The signed reading, printed, is a literal of its value. -/
theorem isLiteral_signedDec5 (v : Word) : IsLiteral (signedDec5 v) (signed16 v) := by
  have hv := v.isLt
  have hmag : (signed16 v).natAbs < 100000 := by
    rw [signed16]
    split <;> omega
  refine ⟨[], [if signed16 v < 0 then '-' else '+'], [], dec5 (signed16 v).natAbs, [],
    (signed16 v).natAbs, by simp [signedDec5], by simp, .inr ?_, .inl ⟨rfl, digitsValue_dec5 hmag⟩⟩
  split
  · next hneg => exact .inr ⟨rfl, by omega⟩
  · next hpos => exact .inl ⟨rfl, by omega⟩

/-- The signed reading is in the range of IN. -/
theorem signed16_range (v : Word) : -32768 ≤ signed16 v ∧ signed16 v ≤ 65535 := by
  have hv := v.isLt
  rw [signed16]
  split <;> omega

/-- The signed reading, masked, is the Word. -/
theorem mask16_signed16 (v : Word) : mask16 (signed16 v) = v := by
  have hv := v.isLt
  apply BitVec.eq_of_toNat_eq
  rw [mask16, BitVec.toNat_ofInt, signed16]
  split <;> omega

/-- Settles O51: the first six characters are a literal of the signed reading, which masks to the
Word. -/
theorem printedNumberReadsBack : Obligations.PrintedNumberReadsBack := by
  intro v
  have htake : (outLine v).take 6 = signedDec5 v := rfl
  rw [htake, lineResponse_of_literal (isLiteral_signedDec5 v), if_pos (signed16_range v),
    mask16_signed16]

end Sys2Proof.Machine
end

section
/-! PROOFS. The statements about the assembler, 30_encoding.md part B: what it reads as an operand
(R99, R103, R114), where it binds labels (R93, R94), what Program it gives (R90, R113), and which
error (R109, R115). -/

namespace Sys2Proof.Asm

/-! ### Operands -/

/-- An immediate is a literal in range, masked. -/
theorem parseImm_eq_some_iff {t : Text} {w : Word} : parseImm t = some w ↔
    ∃ n : Int, IsLiteral t n ∧ -32768 ≤ n ∧ n ≤ 65535 ∧ w = mask16 n := by
  unfold parseImm
  constructor
  · intro h
    split at h
    · next n hn =>
      split at h
      · next hr =>
        obtain ⟨hlo, hhi⟩ := (inImmRange_iff n).1 hr
        exact ⟨n, parseLiteral_eq_some_iff.1 hn, hlo, hhi, (Option.some.inj h).symm⟩
      · cases h
    · cases h
  · rintro ⟨n, hn, hlo, hhi, rfl⟩
    simp only [parseLiteral_eq_some_iff.2 hn, (inImmRange_iff n).2 ⟨hlo, hhi⟩, if_true]

/-- A name is unbound exactly where the table has no entry of it. -/
theorem lookupLabel_eq_none_iff {table : LabelTable} {t : Text} :
    lookupLabel table t = none ↔ ∀ n, (t, n) ∉ table := by
  rw [lookupLabel, Option.map_eq_none_iff, List.find?_eq_none]
  constructor
  · intro h n hn
    exact h (t, n) hn (beq_self_eq_true t)
  · rintro h ⟨t', n⟩ he heq
    obtain rfl : t' = t := beq_iff_eq.1 heq
    exact h n he

/-- A lookup finds the first entry of the name. -/
theorem lookupLabel_append (pre post : LabelTable) (t : Text) :
    lookupLabel (pre ++ post) t = (lookupLabel pre t).or (lookupLabel post t) := by
  simp only [lookupLabel, List.find?_append, Option.map_or]

/-- A lookup finds an entry at the head of the table. -/
theorem lookupLabel_cons_self (t : Text) (n : Nat) (post : LabelTable) :
    lookupLabel ((t, n) :: post) t = some n := by
  simp [lookupLabel]

/-- Settles O56: a target is looked up first, and the first entry of its name counts. -/
theorem immediatesAndTargetsAreRead : Obligations.ImmediatesAndTargetsAreRead := by
  refine ⟨fun t w => parseImm_eq_some_iff, fun table t => ⟨fun hno => ?_, ?_⟩⟩
  · simp only [parseTarget, lookupLabel_eq_none_iff.2 hno]
  · rintro pre post n rfl hno
    have hlookup : lookupLabel (pre ++ (t, n) :: post) t = some n := by
      rw [lookupLabel_append, lookupLabel_eq_none_iff.2 hno, lookupLabel_cons_self]
      rfl
    simp only [parseTarget, hlookup]

/-! ### Pass 1 -/

/-- The number of statement lines. -/
def statementCount (ls : List SrcLine) : Nat := (ls.filter fun l => !isLabelLine l.text).length

theorem pass1_label_ok {table : LabelTable} {n : Nat} {l : SrcLine} {ls : List SrcLine}
    (hl : isLabelLine l.text = true) (hd : labelDefects table (labelName l.text) = []) :
    pass1 table n (l :: ls) = pass1 (table ++ [(labelName l.text, n)]) n ls := by
  rw [pass1, if_pos hl, hd]

theorem pass1_label_error {table : LabelTable} {n : Nat} {l : SrcLine} {ls : List SrcLine}
    (hl : isLabelLine l.text = true) (hd : labelDefects table (labelName l.text) ≠ []) :
    pass1 table n (l :: ls) = .error ⟨l.number, labelDefects table (labelName l.text)⟩ := by
  rw [pass1, if_pos hl]
  split
  · next h => exact absurd h hd
  · next h => rw [h]

theorem pass1_statement {table : LabelTable} {n : Nat} {l : SrcLine} {ls : List SrcLine}
    (hl : isLabelLine l.text = false) :
    pass1 table n (l :: ls) = pass1 table (n + 1) ls := by
  rw [pass1, if_neg (by simp [hl])]

theorem statementCount_cons (l : SrcLine) (ls : List SrcLine) :
    statementCount (l :: ls) = (if isLabelLine l.text then 0 else 1) + statementCount ls := by
  cases h : isLabelLine l.text <;> simp [statementCount, h, Nat.add_comm]

/-- Pass 1 accepts a text exactly as it accepts its first lines and then the others, with the labels
the first declare and the statements they are. -/
theorem pass1_append_eq_ok {table table' : LabelTable} {n : Nat} {ls later : List SrcLine}
    (h : pass1 table n (ls ++ later) = .ok table') : ∃ mid,
      pass1 table n ls = .ok mid ∧ pass1 mid (n + statementCount ls) later = .ok table' := by
  induction ls generalizing table n with
  | nil => exact ⟨table, rfl, h⟩
  | cons l ls ih =>
    rw [List.cons_append] at h
    cases hl : isLabelLine l.text with
    | true =>
      by_cases hd : labelDefects table (labelName l.text) = []
      · rw [pass1_label_ok hl hd] at h
        obtain ⟨mid, hmid, hrest⟩ := ih h
        refine ⟨mid, (pass1_label_ok hl hd).trans hmid, ?_⟩
        rw [statementCount_cons, hl, if_pos rfl, Nat.zero_add]
        exact hrest
      · rw [pass1_label_error hl hd] at h
        cases h
    | false =>
      rw [pass1_statement hl] at h
      obtain ⟨mid, hmid, hrest⟩ := ih h
      refine ⟨mid, (pass1_statement hl).trans hmid, ?_⟩
      rw [statementCount_cons, hl, if_neg Bool.false_ne_true, ← Nat.add_assoc]
      exact hrest

/-- Pass 1 stops only at a wrong declaration, having accepted every line before it. -/
theorem pass1_eq_error {table : LabelTable} {n : Nat} {ls : List SrcLine} {e : AssemblyError}
    (h : pass1 table n ls = .error e) : ∃ earlier l later table', ls = earlier ++ l :: later ∧
      pass1 table n earlier = .ok table' ∧ isLabelLine l.text = true ∧
      labelDefects table' (labelName l.text) ≠ [] ∧
      e = ⟨l.number, labelDefects table' (labelName l.text)⟩ := by
  induction ls generalizing table n with
  | nil => cases h
  | cons l ls ih =>
    cases hl : isLabelLine l.text with
    | true =>
      by_cases hd : labelDefects table (labelName l.text) = []
      · rw [pass1_label_ok hl hd] at h
        obtain ⟨earlier, k, later, table', rfl, hok, hrest⟩ := ih h
        exact ⟨l :: earlier, k, later, table', rfl, (pass1_label_ok hl hd).trans hok, hrest⟩
      · rw [pass1_label_error hl hd] at h
        cases h
        exact ⟨[], l, ls, table, rfl, rfl, hl, hd, rfl⟩
    | false =>
      rw [pass1_statement hl] at h
      obtain ⟨earlier, k, later, table', rfl, hok, hrest⟩ := ih h
      exact ⟨l :: earlier, k, later, table', rfl, (pass1_statement hl).trans hok, hrest⟩

/-- A declaration is right when its name is not empty, has no white space and is not yet
declared. -/
theorem labelDefects_eq_nil_iff {table : LabelTable} {name : Text} : labelDefects table name = [] ↔
    name ≠ [] ∧ (∀ c ∈ name, c ∉ whiteSpace) ∧ lookupLabel table name = none := by
  simp [labelDefects, ← isSpace_iff]

/-- What the entries of a Label Table are (30_encoding.md R94). -/
def LabelTable.Admissible (table : LabelTable) : Prop :=
  (∀ e ∈ table, e.1 ≠ [] ∧ ∀ c ∈ e.1, c ∉ whiteSpace) ∧ (table.map Prod.fst).Nodup

/-- A right declaration keeps the table admissible. -/
theorem LabelTable.Admissible.snoc {table : LabelTable} {name : Text} {n : Nat}
    (h : LabelTable.Admissible table) (hd : labelDefects table name = []) :
    LabelTable.Admissible (table ++ [(name, n)]) := by
  obtain ⟨hne, hspace, hnew⟩ := labelDefects_eq_nil_iff.1 hd
  constructor
  · intro e he
    rcases List.mem_append.1 he with he | he
    · exact h.1 e he
    · rw [List.mem_singleton.1 he]
      exact ⟨hne, hspace⟩
  · rw [List.map_append, List.map_singleton, List.nodup_append]
    refine ⟨h.2, List.nodup_singleton name, fun a ha b hb => ?_⟩
    obtain rfl := List.mem_singleton.1 hb
    rintro rfl
    obtain ⟨⟨a, m⟩, hm, rfl⟩ := List.mem_map.1 ha
    exact lookupLabel_eq_none_iff.1 hnew m hm

/-- Pass 1 adds entries at the end of the table and keeps it admissible. -/
theorem pass1_extends {table table' : LabelTable} {n : Nat} {ls : List SrcLine}
    (h : pass1 table n ls = .ok table') (hadm : LabelTable.Admissible table) :
    (∃ new, table' = table ++ new) ∧ LabelTable.Admissible table' := by
  induction ls generalizing table n with
  | nil =>
    cases h
    exact ⟨⟨[], (List.append_nil _).symm⟩, hadm⟩
  | cons l ls ih =>
    cases hl : isLabelLine l.text with
    | true =>
      by_cases hd : labelDefects table (labelName l.text) = []
      · rw [pass1_label_ok hl hd] at h
        obtain ⟨⟨new, hnew⟩, hadm'⟩ := ih h (hadm.snoc hd)
        exact ⟨⟨_, hnew.trans (List.append_assoc ..)⟩, hadm'⟩
      · rw [pass1_label_error hl hd] at h
        cases h
    | false =>
      rw [pass1_statement hl] at h
      exact ih h hadm

/-- The empty table is admissible. -/
theorem LabelTable.admissible_nil : LabelTable.Admissible [] := ⟨nofun, List.nodup_nil⟩

/-- Settles O53: a declaration binds its name, new in the table, to the count, and what pass 1 adds
later stands behind it. -/
theorem labelsAreBoundToTheNextInstruction : Obligations.LabelsAreBoundToTheNextInstruction := by
  intro lines table h
  refine ⟨?_, (pass1_extends h LabelTable.admissible_nil).2⟩
  rintro earlier l later rfl hl
  obtain ⟨mid, hearlier, hlater⟩ := pass1_append_eq_ok h
  rw [Nat.zero_add] at hlater
  have hadm := (pass1_extends hearlier LabelTable.admissible_nil).2
  by_cases hd : labelDefects mid (labelName l.text) = []
  · rw [pass1_label_ok hl hd] at hlater
    obtain ⟨⟨new, rfl⟩, -⟩ := pass1_extends hlater (hadm.snoc hd)
    obtain ⟨-, -, hnew⟩ := labelDefects_eq_nil_iff.1 hd
    rw [List.append_assoc, lookupLabel_append, hnew, List.singleton_append, lookupLabel_cons_self]
    rfl
  · rw [pass1_label_error hl hd] at hlater
    cases hlater

/-! ### Statements -/

/-- What the assembler builds is well-formed: an address it writes is the value of a Word. -/
theorem wf_of_buildInstr {m : Mnemonic} {ops : List Operand} {i : Instr}
    (h : buildInstr m ops = some i) : i.wf = true := by
  cases m with
  | op o =>
    cases o with
    | add | sub | and | or | xor =>
      change threeRegs _ ops = some i at h
      unfold threeRegs at h
      split at h <;> cases h
      rfl
    | addi | beq | bne =>
      change twoRegsWord _ ops = some i at h
      unfold twoRegsWord at h
      split at h <;> cases h
      rfl
    | ld | st =>
      change regWord _ ops = some i at h
      unfold regWord at h
      split at h <;> cases h
      exact addrInRange_toNat _
    | jmp =>
      change oneWord _ ops = some i at h
      unfold oneWord at h
      split at h <;> cases h
      rfl
    | inp | out =>
      change oneReg _ ops = some i at h
      unfold oneReg at h
      split at h <;> cases h
      rfl
    | halt =>
      change noOperand _ ops = some i at h
      unfold noOperand at h
      split at h <;> cases h
      rfl
  | li =>
    change regWord _ ops = some i at h
    unfold regWord at h
    split at h <;> cases h
    rfl
  | mov =>
    change twoRegs _ ops = some i at h
    unfold twoRegs at h
    split at h <;> cases h
    rfl

/-- A statement assembles to what its mnemonic builds from its operands, where it has no defect. -/
theorem assembleStatement_eq_instr_iff {table : LabelTable} {t : Text} {i : Instr} :
    assembleStatement table t = .instr i ↔ ∃ first ops m, tokens t = first :: ops ∧
      mnemonicOf first = some m ∧ statementDefects table m ops = [] ∧
      buildInstr m (readOperands table m ops) = some i := by
  constructor
  · intro h
    unfold assembleStatement at h
    split at h
    · cases h
    · next first ops ht =>
      split at h
      · cases h
      · next m hm =>
        split at h
        · cases h
        · next hd =>
          split at h
          · next j hb =>
            cases h
            exact ⟨first, ops, m, ht, hm, hd, hb⟩
          · cases h
  · rintro ⟨first, ops, m, ht, hm, hd, hb⟩
    simp only [assembleStatement, ht, hm, hd, hb]

/-- An assembled instruction is well-formed. -/
theorem wf_of_assembleStatement {table : LabelTable} {t : Text} {i : Instr}
    (h : assembleStatement table t = .instr i) : i.wf = true := by
  obtain ⟨_, _, _, -, -, -, hb⟩ := assembleStatement_eq_instr_iff.1 h
  exact wf_of_buildInstr hb

/-! ### Pass 2 -/

/-- Pass 2 passes over a label line. -/
theorem pass2_label {table : LabelTable} {n : Nat} {l : SrcLine} {ls : List SrcLine}
    (hl : isLabelLine l.text = true) : pass2 table n (l :: ls) = pass2 table n ls := by
  rw [pass2, if_pos hl]

/-- The statement of a line does not go into the Program: it does not assemble, or the Program is
full. -/
def StatementFails (table : LabelTable) (n : Nat) (l : SrcLine) : Prop :=
  65535 ≤ n ∨ ∀ i, assembleStatement table l.text ≠ .instr i

/-- A statement that does not fail assembles to an instruction that the Program has room for. -/
theorem exists_instr_of_not_fails {table : LabelTable} {n : Nat} {l : SrcLine}
    (h : ¬ StatementFails table n l) :
    n < 65535 ∧ ∃ i, assembleStatement table l.text = .instr i := by
  simpa [StatementFails] using h

/-- What pass 2 answers with one more instruction in front. -/
def consResult (i : Instr) : Result (List Instr) → Result (List Instr)
  | .ok is => .ok (i :: is)
  | .error e => .error e

theorem consResult_eq_ok {i : Instr} {r : Result (List Instr)} {program : List Instr}
    (h : consResult i r = .ok program) : ∃ is, r = .ok is ∧ program = i :: is := by
  cases r with
  | ok is =>
    cases h
    exact ⟨is, rfl, rfl⟩
  | error e => cases h

theorem consResult_eq_error {i : Instr} {r : Result (List Instr)} {e : AssemblyError}
    (h : consResult i r = .error e) : r = .error e := by
  cases r with
  | ok is => cases h
  | error e => exact h

/-- Pass 2 goes on after a statement that assembles, as long as there is room for it. -/
theorem pass2_instr {table : LabelTable} {n : Nat} {l : SrcLine} {ls : List SrcLine} {i : Instr}
    (hl : isLabelLine l.text = false) (hi : assembleStatement table l.text = .instr i)
    (hn : n < 65535) : pass2 table n (l :: ls) = consResult i (pass2 table (n + 1) ls) := by
  rw [pass2, if_neg (by simp [hl]), hi, lengthDefects, if_pos hn]
  cases pass2 table (n + 1) ls <;> rfl

/-- Pass 2 stops at a statement that fails. -/
theorem pass2_fails {table : LabelTable} {n : Nat} {l : SrcLine} {ls : List SrcLine}
    (hl : isLabelLine l.text = false) (h : StatementFails table n l) :
    ∃ d ds, pass2 table n (l :: ls) = .error ⟨l.number, d :: ds⟩ := by
  rw [pass2, if_neg (by simp [hl])]
  rcases hi : assembleStatement table l.text with i | ⟨d, ds⟩
  · have hn : ¬ n < 65535 := by
      rcases h with h | h
      · omega
      · exact absurd hi (h i)
    rw [lengthDefects, if_neg hn]
    exact ⟨_, _, rfl⟩
  · exact ⟨d, _, rfl⟩

/-- Where pass 2 accepts the lines, its Program is that of their statements, in order, and the
greatest index stays in range. -/
theorem pass2_eq_ok {table : LabelTable} {n : Nat} {ls : List SrcLine} {program : List Instr}
    (h : pass2 table n ls = .ok program) (hn : n ≤ 65535) : n + program.length ≤ 65535 ∧
      (ls.filter fun l => !isLabelLine l.text).map (fun l => assembleStatement table l.text)
        = program.map Statement.instr := by
  induction ls generalizing n program with
  | nil =>
    cases h
    exact ⟨hn, rfl⟩
  | cons l ls ih =>
    cases hl : isLabelLine l.text with
    | true =>
      rw [pass2_label hl] at h
      rw [List.filter_cons_of_neg (by simp [hl])]
      exact ih h hn
    | false =>
      rw [List.filter_cons_of_pos (by simp [hl])]
      by_cases hfail : StatementFails table n l
      · obtain ⟨d, ds, he⟩ := pass2_fails (ls := ls) hl hfail
        cases he.symm.trans h
      · obtain ⟨hlt, i, hi⟩ := exists_instr_of_not_fails hfail
        rw [pass2_instr hl hi hlt] at h
        obtain ⟨is, his, rfl⟩ := consResult_eq_ok h
        obtain ⟨hlen, hmap⟩ := ih his hlt
        refine ⟨by rw [List.length_cons]; omega, ?_⟩
        rw [List.map_cons, List.map_cons, hi, hmap]

/-- Pass 2 stops only at a statement that fails, having accepted every line before it. -/
theorem pass2_eq_error {table : LabelTable} {n : Nat} {ls : List SrcLine} {e : AssemblyError}
    (h : pass2 table n ls = .error e) : ∃ earlier l later program, ls = earlier ++ l :: later ∧
      pass2 table n earlier = .ok program ∧ isLabelLine l.text = false ∧
      StatementFails table (n + program.length) l ∧ e.line = l.number ∧ e.defects ≠ [] := by
  induction ls generalizing n with
  | nil => cases h
  | cons l ls ih =>
    cases hl : isLabelLine l.text with
    | true =>
      rw [pass2_label hl] at h
      obtain ⟨earlier, k, later, program, rfl, hok, hrest⟩ := ih h
      exact ⟨l :: earlier, k, later, program, rfl, (pass2_label hl).trans hok, hrest⟩
    | false =>
      by_cases hfail : StatementFails table n l
      · obtain ⟨d, ds, he⟩ := pass2_fails (ls := ls) hl hfail
        cases he.symm.trans h
        exact ⟨[], l, ls, [], rfl, rfl, hl, hfail, rfl, List.cons_ne_nil d ds⟩
      · obtain ⟨hlt, i, hi⟩ := exists_instr_of_not_fails hfail
        rw [pass2_instr hl hi hlt] at h
        obtain ⟨earlier, k, later, program, rfl, hok, hk, hf, hrest⟩ := ih (consResult_eq_error h)
        refine ⟨l :: earlier, k, later, i :: program, rfl, ?_, hk, ?_, hrest⟩
        · rw [pass2_instr hl hi hlt, hok, consResult]
        · rw [List.length_cons, Nat.add_comm _ 1, ← Nat.add_assoc]
          exact hf

/-! ### The two passes together -/

/-- A successful assembly is one that both passes accept. -/
theorem assemble_eq_ok {src : Text} {a : Assembled} (h : assemble src = .ok a) :
    pass1 [] 0 (cleanedLines src) = .ok a.labels ∧
      pass2 a.labels 0 (cleanedLines src) = .ok a.program := by
  unfold assemble at h
  split at h
  · cases h
  · next table htable =>
    split at h
    · cases h
    · next program hprogram =>
      cases h
      exact ⟨htable, hprogram⟩

/-- A failed assembly is one that pass 1 stops, or pass 2 where pass 1 accepts the text. -/
theorem assemble_eq_error {src : Text} {e : AssemblyError} (h : assemble src = .error e) :
    pass1 [] 0 (cleanedLines src) = .error e ∨ ∃ table,
      pass1 [] 0 (cleanedLines src) = .ok table ∧ pass2 table 0 (cleanedLines src) = .error e := by
  unfold assemble at h
  split at h
  · next e' he =>
    cases h
    exact .inl he
  · next table htable =>
    split at h
    · next e' he =>
      cases h
      exact .inr ⟨table, htable, he⟩
    · cases h

/-- An assembled Program is within the limit. -/
theorem length_of_assemble {src : Text} {a : Assembled} (h : assemble src = .ok a) :
    a.words.length ≤ 65535 := by
  have hlen := (pass2_eq_ok (assemble_eq_ok h).2 (Nat.zero_le _)).1
  rwa [Nat.zero_add, ← List.length_map (f := encode)] at hlen

/-- Settles O52: pass 2 collects the statements' instructions, each of them well-formed. -/
theorem assembledProgramFollowsTheStatements :
    Obligations.AssembledProgramFollowsTheStatements := by
  intro src a h
  obtain ⟨hlen, hmap⟩ := pass2_eq_ok (assemble_eq_ok h).2 (Nat.zero_le _)
  rw [Nat.zero_add] at hlen
  refine ⟨hlen, hmap, ?_⟩
  rw [Assembled.words, List.map_map]
  refine List.map_congr_left fun i hi => decode_encode ?_
  have hmem : Statement.instr i ∈ a.program.map Statement.instr := List.mem_map_of_mem hi
  rw [← hmap] at hmem
  obtain ⟨l, -, hl⟩ := List.mem_map.1 hmem
  exact wf_of_assembleStatement hl

/-- Settles O57: the pass that stops has accepted every line before the one it names. -/
theorem assemblyErrorIsTheFirst : Obligations.AssemblyErrorIsTheFirst := by
  intro src e h
  rcases assemble_eq_error h with h1 | ⟨table, htable, h2⟩
  · obtain ⟨earlier, l, later, mid, heq, hok, hl, hd, rfl⟩ := pass1_eq_error h1
    exact ⟨hd, earlier, l, later, heq, rfl, .inl ⟨hl, mid, hok, rfl⟩⟩
  · obtain ⟨earlier, l, later, program, heq, hok, hl, hf, hline, hd⟩ := pass2_eq_error h2
    refine ⟨hd, earlier, l, later, heq, hline, .inr ⟨hl, table, program, htable, hok, ?_⟩⟩
    have hlen := (pass2_eq_ok hok (Nat.zero_le _)).1
    exact hf.imp_left fun hfull => by omega

end Sys2Proof.Asm
end

section
/-! PROOFS. The printed form of an instruction, 30_encoding.md R118: its characters, the tokens it
splits into, and what the assembler makes of it. -/

namespace Sys2Proof.Asm

/-! ### Words of the printed form -/

/-- The characters that separate words, begin a comment or end a label declaration. -/
def separators : Text := whiteSpace ++ [',', ';', '#', ':']

/-- A token of the printed form: no separator in it. -/
def IsPrintedWord (w : Text) : Prop := w ≠ [] ∧ ∀ c ∈ w, c ∉ separators

/-- White space separates words. -/
theorem isSpace_of_not_separator {c : Char} (h : c ∉ separators) : isSpace c = false := by
  rw [← Bool.not_eq_true, isSpace_iff]
  exact fun hc => h (List.mem_append_left _ hc)

theorem opcodeName_isPrintedWord (o : Opcode) : IsPrintedWord (opcodeName o) := by
  cases o <;> simp [IsPrintedWord, opcodeName, separators, whiteSpace]

/-- The five digits of a number are no separators. -/
theorem not_separator_of_mem_dec5 {n : Nat} : ∀ c ∈ Machine.dec5 n, c ∉ separators := by
  have hdigit : ∀ d : Fin 10, Machine.decChar d.val ∉ separators := by decide
  have hmod := fun k => hdigit ⟨k % 10, by omega⟩
  simp only [Machine.dec5, List.forall_mem_cons]
  exact ⟨hmod _, hmod _, hmod _, hmod _, hmod _, List.forall_mem_nil _⟩

theorem decText_isPrintedWord (n : Nat) : IsPrintedWord (decText n) := by
  unfold decText
  split
  · exact ⟨List.cons_ne_nil _ _, List.forall_mem_singleton.2 (by decide)⟩
  · next c cs he =>
    refine ⟨List.cons_ne_nil c cs, fun d hd => not_separator_of_mem_dec5 (n := n) d ?_⟩
    rw [← he] at hd
    exact (List.dropWhile_sublist _).subset hd

theorem regText_isPrintedWord (r : RegIdx) : IsPrintedWord (regText r) := by
  obtain ⟨-, hdigits⟩ := decText_isPrintedWord r.val
  exact ⟨List.cons_ne_nil _ _, List.forall_mem_cons.2 ⟨by decide, hdigits⟩⟩

theorem wordText_isPrintedWord (w : Word) : IsPrintedWord (wordText w) := decText_isPrintedWord _

/-- The operands of the printed form are such tokens. -/
theorem operandTexts_isPrintedWord (i : Instr) : ∀ t ∈ operandTexts i, IsPrintedWord t := by
  cases i <;> simp [operandTexts, regText_isPrintedWord, wordText_isPrintedWord]

/-! ### The tokens of the printed form -/

/-- A comma counts as a space. -/
theorem tokens_eq_wordsFrom (t : Text) :
    tokens t = wordsFrom [] (t.map fun c => if c = ',' then ' ' else c) := rfl

/-- A word has no comma to replace. -/
theorem map_comma_of_word {w : Text} (hw : IsPrintedWord w) :
    (w.map fun c => if c = ',' then ' ' else c) = w := by
  refine (List.map_congr_left fun c hc => if_neg ?_).trans (List.map_id w)
  rintro rfl
  exact hw.2 ',' hc (by decide)

/-- A word alone is one token. -/
theorem tokens_word {w : Text} (hw : IsPrintedWord w) : tokens w = [w] := by
  rw [tokens_eq_wordsFrom, map_comma_of_word hw]
  exact wordsFrom_last hw.1 fun c hc => isSpace_of_not_separator (hw.2 c hc)

/-- A space or a comma ends a word. -/
theorem tokens_word_sep {w : Text} (hw : IsPrintedWord w) {c : Char} (hc : c = ' ' ∨ c = ',')
    (t : Text) : tokens (w ++ c :: t) = w :: tokens t := by
  have hspace : (if c = ',' then ' ' else c) = ' ' := by rcases hc with rfl | rfl <;> rfl
  rw [tokens_eq_wordsFrom, List.map_append, map_comma_of_word hw, List.map_cons, hspace]
  exact wordsFrom_word hw.1 (fun c hc => isSpace_of_not_separator (hw.2 c hc)) _

/-- A leading space is no token. -/
theorem tokens_space (t : Text) : tokens (' ' :: t) = tokens t := rfl

/-- Joined operands split into the operands. -/
theorem tokens_joinOperands : ∀ ts : List Text, (∀ t ∈ ts, IsPrintedWord t) →
    tokens (joinOperands ts) = ts
  | [], _ => rfl
  | [t], h => tokens_word (h t (List.mem_singleton_self t))
  | t :: u :: ts, h => by
    rw [joinOperands, List.append_assoc, List.cons_append, List.singleton_append,
      tokens_word_sep (h t List.mem_cons_self) (.inr rfl), tokens_space,
      tokens_joinOperands (u :: ts) fun x hx => h x (List.mem_cons_of_mem t hx)]

/-- The printed form splits into the mnemonic and the operands. -/
theorem tokens_printInstr (i : Instr) :
    tokens (printInstr i) = opcodeName i.opcode :: operandTexts i := by
  have hname := opcodeName_isPrintedWord i.opcode
  have hops := operandTexts_isPrintedWord i
  unfold printInstr
  split
  · next he => rw [tokens_word hname, he]
  · next t ts he =>
    rw [he] at hops
    rw [List.append_assoc, List.singleton_append, tokens_word_sep hname (.inl rfl),
      tokens_joinOperands (t :: ts) hops, he]

/-! ### The printed form as a line -/

/-- A text that begins and ends with no separator and has no line feed and no comment in it. -/
structure IsPrintedLine (t : Text) : Prop where
  head : ∃ c, t.head? = some c ∧ c ∉ separators
  last : ∃ c, t.getLast? = some c ∧ c ∉ separators
  chars : ∀ c ∈ t, c ∉ ['\n', ';', '#']

theorem IsPrintedWord.isPrintedLine {w : Text} (h : IsPrintedWord w) : IsPrintedLine w where
  head := ⟨_, List.head?_eq_some_head h.1, h.2 _ (List.head_mem h.1)⟩
  last := ⟨_, List.getLast?_eq_some_getLast h.1, h.2 _ (List.getLast_mem h.1)⟩
  chars c hc hbad := h.2 c hc ((by decide : ['\n', ';', '#'] ⊆ separators) hbad)

/-- Two such texts with spaces and commas between them are one. -/
theorem IsPrintedLine.append {t sep u : Text} (ht : IsPrintedLine t) (hu : IsPrintedLine u)
    (hsep : ∀ c ∈ sep, c ∉ ['\n', ';', '#']) : IsPrintedLine (t ++ sep ++ u) where
  head := by
    obtain ⟨c, hc, hal⟩ := ht.head
    exact ⟨c, by simp [List.head?_append, hc], hal⟩
  last := by
    obtain ⟨c, hc, hal⟩ := hu.last
    exact ⟨c, by simp [List.getLast?_append, hc], hal⟩
  chars c hc := by
    rcases List.mem_append.1 hc with hc | hc
    · exact (List.mem_append.1 hc).elim (ht.chars c) (hsep c)
    · exact hu.chars c hc

theorem joinOperands_isPrintedLine : ∀ (t : Text) (ts : List Text),
    (∀ x ∈ t :: ts, IsPrintedWord x) → IsPrintedLine (joinOperands (t :: ts))
  | t, [], h => (h t (List.mem_singleton_self t)).isPrintedLine
  | t, u :: ts, h => (h t List.mem_cons_self).isPrintedLine.append
      (joinOperands_isPrintedLine u ts fun x hx => h x (List.mem_cons_of_mem t hx)) (by simp)

theorem printInstr_isPrintedLine (i : Instr) : IsPrintedLine (printInstr i) := by
  have hname := (opcodeName_isPrintedWord i.opcode).isPrintedLine
  have hops := operandTexts_isPrintedWord i
  unfold printInstr
  split
  · exact hname
  · next t ts he =>
    rw [he] at hops
    exact hname.append (joinOperands_isPrintedLine t ts hops) (by simp)

/-- Cleaning leaves such a text as it is. -/
theorem IsPrintedLine.clean_eq {t : Text} (h : IsPrintedLine t) : clean t = t := by
  have hcut : (t.takeWhile fun c => c != ';' && c != '#') = t := by
    rw [List.takeWhile_eq_self_iff]
    intro c hc
    have hchar := h.chars c hc
    simp only [List.mem_cons, List.not_mem_nil, or_false, not_or] at hchar
    simp [hchar]
  obtain ⟨c, hhead, hc⟩ := h.head
  obtain ⟨d, hlast, hd⟩ := h.last
  have hne : t ≠ [] := by
    rintro rfl
    cases hhead
  have htrim := trim_append (before := []) (after := []) (core := t) (by simp) (by simp) hne
    (fun x hx => by
      obtain rfl : c = x := Option.some.inj (hhead.symm.trans hx)
      exact isSpace_of_not_separator hc)
    (fun x hx => by
      obtain rfl : d = x := Option.some.inj (hlast.symm.trans hx)
      exact isSpace_of_not_separator hd)
  rw [clean, hcut]
  simpa using htrim

/-- Such a text is one source line, as it is. -/
theorem IsPrintedLine.cleanedLines_eq {t : Text} (h : IsPrintedLine t) :
    cleanedLines t = [⟨1, t⟩] := by
  have hne : t ≠ [] := by
    obtain ⟨c, hhead, -⟩ := h.head
    rintro rfl
    cases hhead
  have hfeed : '\n' ∉ t := fun hc => h.chars _ hc (by decide)
  rw [cleanedLines, splitLines_of_no_lineFeed t hfeed, cleanFrom, h.clean_eq,
    if_neg hne, cleanFrom]

/-- Such a text declares no label. -/
theorem IsPrintedLine.isLabelLine_eq {t : Text} (h : IsPrintedLine t) : isLabelLine t = false := by
  obtain ⟨c, hlast, hc⟩ := h.last
  have hcolon : c ≠ ':' := by
    rintro rfl
    exact hc (by decide)
  simp [isLabelLine, hlast, hcolon]

/-! ### The printed form as a statement -/

theorem mnemonicOf_opcodeName (o : Opcode) : mnemonicOf (opcodeName o) = some (.op o) := by
  cases o <;> decide

theorem readOperand_regText (table : LabelTable) (r : RegIdx) :
    readOperand table .reg (regText r) = .reg r := by
  simp only [readOperand, parseReg_regText]

theorem readOperand_imm_wordText (table : LabelTable) (w : Word) :
    readOperand table .imm (wordText w) = .word w := by
  simp only [readOperand, parseImm_wordText]

/-- Without labels a printed Word is a target too. -/
theorem readOperand_target_wordText (w : Word) :
    readOperand [] .target (wordText w) = .word w := by
  have hlookup : lookupLabel [] (wordText w) = none := rfl
  simp only [readOperand, parseTarget, hlookup, parseImm_wordText]

/-- The printed operands are those that the mnemonic takes, and build the instruction. -/
theorem operandTexts_build {i : Instr} (hi : i.wf = true) :
    statementDefects [] (.op i.opcode) (operandTexts i) = [] ∧
      buildInstr (.op i.opcode) (readOperands [] (.op i.opcode) (operandTexts i)) = some i := by
  cases i with
  | add | sub | and | or | xor | addi | beq | bne | jmp | inp | out | halt =>
    rw [statementDefects_of_arity [] rfl]
    simp only [operandTexts, Instr.opcode, readOperands, operandKinds, List.zipWith,
      readOperand_regText, readOperand_imm_wordText, readOperand_target_wordText]
    exact ⟨rfl, rfl⟩
  | ld r addr | st r addr =>
    rw [statementDefects_of_arity [] rfl]
    simp only [operandTexts, Instr.opcode, readOperands, operandKinds, List.zipWith,
      readOperand_regText, readOperand_imm_wordText]
    refine ⟨rfl, ?_⟩
    simp only [buildInstr, regWord, mask16_toNat_of_addrInRange hi]

/-- The printed form of a well-formed instruction assembles to it. -/
theorem assembleStatement_printInstr {i : Instr} (hi : i.wf = true) :
    assembleStatement [] (printInstr i) = .instr i :=
  assembleStatement_eq_instr_iff.2 ⟨_, _, _, tokens_printInstr i, mnemonicOf_opcodeName i.opcode,
    operandTexts_build hi⟩

/-- Settles O55: the printed form is one line, a statement, and it assembles to the instruction. -/
theorem printedFormAssemblesBack : Obligations.PrintedFormAssemblesBack := by
  intro i hi
  have hline := printInstr_isPrintedLine i
  have hlabel := hline.isLabelLine_eq
  rw [assemble, hline.cleanedLines_eq, pass1_statement hlabel, pass1]
  simp only
  rw [pass2_instr hlabel (assembleStatement_printInstr hi) (by decide)]
  rfl

end Sys2Proof.Asm
end

section
/-! PROOFS. The statement about the process, 60_exceptions.md R186: with all its input lines given,
it ends in one of its four conditions. -/

namespace Sys2Proof.Machine

/-- The last answer stays the last when another one is taken from the front. -/
theorem getLast?_of_cons {r e : InResp} {rest : List InResp} (hne : r ≠ e)
    (h : (r :: rest).getLast? = some e) : rest.getLast? = some e := by
  cases rest with
  | nil => exact absurd (Option.some.inj h) hne
  | cons q rest => exact h

/-- No execution takes the answer EndOfInput from the port (log 12). -/
theorem exec_keeps_endOfInput {i : Instr} {s t : State} (h : exec i s = .next t)
    (hend : s.input.getLast? = some .endOfInput) : t.input.getLast? = some .endOfInput := by
  cases exec_effect h with
  | value rd v rest hin | malformed rd rest hin | outOfRange rd rest hin =>
    exact getLast?_of_cons (by simp) (hin ▸ hend)
  | add | sub | and | or | xor | addi | load | boundsLd | store | boundsSt | beq | bne | jmp
  | endOfInput | output | halt => exact hend

/-- An input source that ends with EndOfInput goes on ending with it. -/
theorem run_keeps_endOfInput {n : Nat} {s t : State} (h : Sys2Proof.core.run n s = .next t)
    (hend : s.input.getLast? = some .endOfInput) : t.input.getLast? = some .endOfInput := by
  induction n generalizing s with
  | zero =>
    cases h
    exact hend
  | succ n ih =>
    obtain ⟨u, hstep, hrun⟩ := run_succ_eq_next h
    refine ih hrun ?_
    cases step_effect hstep with
    | stopped | outOfProgram | illegal => exact hend
    | executed w i v _ _ _ hv =>
      have hlast := exec_keeps_endOfInput hv hend
      exact hlast

/-- With all the input lines given, the driver never waits. -/
theorem runFor_ne_waiting {n : Nat} {s t : State} {lines : List Text}
    (hin : s.input = portResponses lines) : runFor n s ≠ .waiting t := by
  intro h
  obtain ⟨m, -, hrun, -, hnil, -⟩ := runFor_waiting h
  have hlast := run_keeps_endOfInput hrun (by rw [hin, portResponses, List.getLast?_concat])
  rw [hnil] at hlast
  cases hlast

/-- An admitted Program boots Running with the answers given. -/
theorem boot_of_admitted {prog : List InstrWord} (h : prog.length ≤ 65535) (input : List InResp)
    (traceEn : Bool) : ∃ s, boot prog input traceEn = some s ∧ s.input = input :=
  ⟨_, if_pos h, rfl⟩

/-- The process of an assembled text ends as the driver's run of its Program. -/
theorem process_of_boot {src : Text} {a : Asm.Assembled} {traceEn : Bool} {lines : List Text}
    {s : State} (ha : Asm.assemble src = .ok a)
    (hs : boot a.words (portResponses lines) traceEn = some s) (n : Nat) :
    process (some src) traceEn lines n = (runFor n s).exit := by
  simp only [process, ha, hs]

/-- Settles O58: an assembled Program boots, and the driver's run of it returns or faults. -/
theorem processEndsByItsConditions : Obligations.ProcessEndsByItsConditions := by
  refine fun traceEn lines n => ⟨rfl, fun src => ⟨fun e he => ?_, fun a ha => ?_⟩⟩
  · simp only [process, he]
  · obtain ⟨s, hs, hin⟩ :=
      boot_of_admitted (Asm.length_of_assemble ha) (portResponses lines) traceEn
    refine ⟨s, hs, ?_⟩
    rw [process_of_boot ha hs]
    cases hres : runFor n s with
    | returned c t =>
      obtain ⟨-, m, hm, hrun, hst⟩ := runFor_returned hres
      exact .inr ⟨rfl, m, t, hm, hrun, hst⟩
    | faulted c t =>
      obtain ⟨m, hm, hrun, hst⟩ := runFor_faulted hres
      exact .inl ⟨rfl, m, t, c, hm, hrun, hst⟩
    | waiting t => exact absurd hres (runFor_ne_waiting hin)

end Sys2Proof.Machine
end
